-- ==== Sys2Proof/Word.lean ====
section
/-! DEFINITION. The word types of the adapter: every value is an unsigned integer of a stated width (R10). -/

namespace Sys2Proof

/-- A byte: a port byte, a command or data byte, an LCD instruction byte, a glyph row. -/
abbrev Byte := BitVec 8

/-- A nibble, one half of a byte, as the data lines D4 to D7 carry it (R10, R57). -/
abbrev Nibble := BitVec 4

/-- One host command word HW (R84). -/
abbrev HostWord := BitVec 80

end Sys2Proof
end

