-- ==== Sys2Proof/Config.lean ====
section
/-! DEFINITION. The parameters of R5 as one record, and the free values: what the spec leaves open, as constants
with no body. The parameters' defaults and their well-formedness are in Sys2Proof/Machine/Parameters.lean. -/

namespace Sys2Proof

/-- The eight roles of the port byte (R5, R6). -/
inductive Role
  | rs | rw | en | bl | d4 | d5 | d6 | d7
deriving DecidableEq, Repr

/-- PinMapping: the port bit position of each role (R5, R32). -/
structure PinMapping where
  rs : Fin 8
  rw : Fin 8
  en : Fin 8
  bl : Fin 8
  d4 : Fin 8
  d5 : Fin 8
  d6 : Fin 8
  d7 : Fin 8
deriving DecidableEq, Repr

/-- The row base-address table ROWBASE[0..3] (R5, R54). -/
structure RowBase where
  row0 : BitVec 7
  row1 : BitVec 7
  row2 : BitVec 7
  row3 : BitVec 7
deriving DecidableEq, Repr

/-- The minimum delays T_* of R5, in nanoseconds. -/
structure Timing where
  powerup : Nat
  init1 : Nat
  init2 : Nat
  cmd : Nat
  long : Nat
  data : Nat
  enh : Nat
  enl : Nat
deriving DecidableEq, Repr

/-- LCDI, the LCD instruction byte constants (R89, 92 D16): the assumption 93 G1, G2 and G4 as data. A position is
the place of a flag's bit in the byte. -/
structure Lcdi where
  clear : Byte
  home : Byte
  entryBase : Byte
  entryIPos : Nat
  entrySPos : Nat
  dispBase : Byte
  dispDPos : Nat
  dispCPos : Nat
  dispBPos : Nat
  funcBase : Byte
  funcNPos : Nat
  funcFPos : Nat
  cgramBase : Byte
  glyphShift : Nat
  ddramBase : Byte
  initNibbles : List Nibble
deriving DecidableEq, Repr

/-- The construction-time configuration (R5, R32). No operation writes it. -/
structure Config where
  addr : BitVec 7
  pins : PinMapping
  rows : Nat
  cols : Nat
  rowBase : RowBase
  font : Bool
  times : Timing
  blImmediate : Bool
  tickNs : Nat
  lcdi : Lcdi
deriving DecidableEq, Repr

/-- What the transport does with one write (R9, R52): it answers success or failure, or never answers. -/
inductive Answer
  | success
  | failure
  | silence
deriving DecidableEq, Repr

/-- ADDR, the expander's I2C address: OPEN (92 D24). DESIGN CHOICE, a free value, safe; log 9. -/
opaque Config.busAddress : BitVec 7

/-- TICK_NS less one: OPEN (92 D10). DESIGN CHOICE, a free value, safe; log 10. -/
opaque Config.tickMinusOne : Nat

/-- What the transport answers after reset, oldest first (92 D8). DESIGN CHOICE, a free value, safe; log 2. -/
opaque Config.transportAnswers : List Answer

/-- PORT after the failed write of draw `n` (93 U1). DESIGN CHOICE, a free value, safe; log 3. -/
opaque Config.portAfterFailure : Nat → Byte

/-- PORT after the reset of draw `n` (R223, 93 U2). DESIGN CHOICE, a free value, unsafe only as log 4 says. -/
opaque Config.portAfterReset : Nat → Byte

/-- DS.ID after the reset of draw `n` (R37, 93 U3). DESIGN CHOICE, a free value, unsafe only as log 5 says. -/
opaque Config.dsIdAfterReset : Nat → Bool

/-- DS.S after the reset of draw `n` (R37, 93 U3). DESIGN CHOICE, a free value, unsafe only as log 5 says. -/
opaque Config.dsSAfterReset : Nat → Bool

/-- DS.D after the reset of draw `n` (R37, 93 U3). DESIGN CHOICE, a free value, unsafe only as log 5 says. -/
opaque Config.dsDAfterReset : Nat → Bool

/-- DS.C after the reset of draw `n` (R37, 93 U3). DESIGN CHOICE, a free value, unsafe only as log 5 says. -/
opaque Config.dsCAfterReset : Nat → Bool

/-- DS.B after the reset of draw `n` (R37, 93 U3). DESIGN CHOICE, a free value, unsafe only as log 5 says. -/
opaque Config.dsBAfterReset : Nat → Bool

/-- CURB after the reset of draw `n` (R21, R37). DESIGN CHOICE, a free value, unsafe only as log 6 says. -/
opaque Config.curbAfterReset : Nat → Byte

/-- RSSEL after the reset of draw `n` (R21, R37). DESIGN CHOICE, a free value, unsafe only as log 6 says. -/
opaque Config.rsselAfterReset : Nat → Bool

/-- NIB after the reset of draw `n` (R21, R37). DESIGN CHOICE, a free value, unsafe only as log 6 says. -/
opaque Config.nibAfterReset : Nat → Byte

end Sys2Proof
end

