-- ==== Sys2Proof/Machine/Parameters.lean ====
section
/-! DEFINITION. The parameters' defaults (R5), their well-formedness (R6) and the constants derived from them (R7). -/

namespace Sys2Proof.Machine

/-- The default mapping: bit0=RS, bit1=RW, bit2=Enable, bit3=Backlight, bits4–7=data nibble (R5, R81). -/
def defaultPins : PinMapping := ⟨0, 1, 2, 3, 4, 5, 6, 7⟩

/-- The default row table of a display `cols` wide (R5, R54). Rows 2 and 3 are general knowledge (93 G5): PRESUMED,
unsafe for a claim about those rows that does not name the table; log 11. -/
def defaultRowBase (cols : Nat) : RowBase :=
  ⟨0x00, 0x40, BitVec.ofNat 7 cols, BitVec.ofNat 7 (0x40 + cols)⟩

/-- The default minimum delays in nanoseconds (R5, R239). -/
def defaultTiming : Timing where
  powerup := 15000000
  init1 := 4100000
  init2 := 100000
  cmd := 40000
  long := 1520000
  data := 40000
  enh := 1000
  enl := 1000

/-- The default LCD byte constants (R90 to R99). General knowledge (93 G1, G2, G4): PRESUMED, unsafe for a claim about
concrete bytes that does not name this record; log 12. -/
def defaultLcdi : Lcdi where
  clear := 0x01
  home := 0x02
  entryBase := 0x04
  entryIPos := 1
  entrySPos := 0
  dispBase := 0x08
  dispDPos := 2
  dispCPos := 1
  dispBPos := 0
  funcBase := 0x20
  funcNPos := 3
  funcFPos := 2
  cgramBase := 0x40
  glyphShift := 3
  ddramBase := 0x80
  initNibbles := [0x3, 0x3, 0x3, 0x2]

/-- The default configuration (R5). ADDR and TICK_NS are OPEN: free values (log 9, 10). -/
def defaultConfig : Config where
  addr := Config.busAddress
  pins := defaultPins
  rows := 2
  cols := 16
  rowBase := defaultRowBase 16
  font := false
  times := defaultTiming
  blImmediate := false
  tickNs := Config.tickMinusOne + 1
  lcdi := defaultLcdi

/-- `pos(r)`, the port bit of a role (R5, R32). -/
def pos (c : Config) (r : Role) : Nat :=
  match r with
  | .rs => c.pins.rs.val
  | .rw => c.pins.rw.val
  | .en => c.pins.en.val
  | .bl => c.pins.bl.val
  | .d4 => c.pins.d4.val
  | .d5 => c.pins.d5.val
  | .d6 => c.pins.d6.val
  | .d7 => c.pins.d7.val

/-- `M(r)`, the 8-bit mask of a role (R7). -/
def roleMask (c : Config) (r : Role) : Byte := 1#8 <<< pos c r

/-- `EnableMask` (R7). -/
def enableMask (c : Config) : Byte := roleMask c .en

/-- `ROWBASE[r]` (R5, R54). -/
def rowBaseOf (c : Config) (row : Nat) : BitVec 7 :=
  match row with
  | 0 => c.rowBase.row0
  | 1 => c.rowBase.row1
  | 2 => c.rowBase.row2
  | _ => c.rowBase.row3

/-- R6 (a): the eight roles map to distinct bits, so `pos` is a bijection onto the eight bits. -/
def pinsWf (c : Config) : Bool :=
  decide [pos c .rs, pos c .rw, pos c .en, pos c .bl, pos c .d4, pos c .d5, pos c .d6, pos c .d7].Nodup

/-- R6 (b): `1 <= ROWS <= 4` and `1 <= COLS <= 40`. -/
def geometryWf (c : Config) : Bool :=
  decide (1 ≤ c.rows) && decide (c.rows ≤ 4) && decide (1 ≤ c.cols) && decide (c.cols ≤ 40)

/-- R6 (c): every address of every row fits 7 bits. -/
def rowsWf (c : Config) : Bool :=
  (List.range c.rows).all fun r => decide ((rowBaseOf c r).toNat + c.cols - 1 ≤ 0x7F)

/-- Well-formedness of a parameter set (R6), and `TICK_NS` positive (R5). R6 (d) and (e) are in the fields' types. -/
def configWf (c : Config) : Bool :=
  pinsWf c && geometryWf c && rowsWf c && decide (0 < c.tickNs)

end Sys2Proof.Machine
end

