-- ==== Sys2Proof/Syntax.lean ====
section
/-! DEFINITION. The instructions: one constructor per row of spec/opcode_table.json. The twelve host operations of
R85, the four reserved host codes of R88, the nine LCD instruction byte classes of R89 to R98, and the port byte of
R81 and R82. writeString has no row (R102): it is the operation `Machine.writeString`. -/

namespace Sys2Proof

/-- One row of the opcode table with its operands (R86 for the host words, whose operands are unsigned immediates). -/
inductive Instr
  /-- INIT, initialize() (R141). -/
  | init
  /-- CMD, sendCommand(cmd) (R142). -/
  | cmd (cmd : Byte)
  /-- DATA, sendData(value) (R143). -/
  | data (value : Byte)
  /-- CLEAR, clear() (R161). -/
  | clear
  /-- HOME, home() (R162). -/
  | home
  /-- SETCUR, setCursor(column, row); row is field `a`, column field `b` (R163). -/
  | setcur (row : BitVec 4) (column : Byte)
  /-- WRCHAR, writeCharacter(byte) (R164). -/
  | wrchar (byte : Byte)
  /-- DISPVIS, setDisplayVisible(v) (R166). -/
  | dispvis (v : Bool)
  /-- CURVIS, setCursorVisible(v) (R167). -/
  | curvis (v : Bool)
  /-- CURBLINK, setCursorBlink(v) (R168). -/
  | curblink (v : Bool)
  /-- BACKLIGHT, setBacklight(on) (R169). -/
  | backlight (on : Bool)
  /-- GLYPH, defineCustomGlyph(index, rows), row 0 first (R170). -/
  | glyph (index : BitVec 4) (rows : List Byte)
  /-- RESERVED_C: host code 0xC with the word's other 76 bits (R88). -/
  | reservedC (rest : BitVec 76)
  /-- RESERVED_D: host code 0xD with the word's other 76 bits (R88). -/
  | reservedD (rest : BitVec 76)
  /-- RESERVED_E: host code 0xE with the word's other 76 bits (R88). -/
  | reservedE (rest : BitVec 76)
  /-- RESERVED_F: host code 0xF with the word's other 76 bits (R88). -/
  | reservedF (rest : BitVec 76)
  /-- LCD.CLEAR, byte 00000001 (R90). -/
  | lcdClear
  /-- LCD.HOME, bytes 0000001x; `x` is the bit the display ignores (R91). -/
  | lcdHome (x : Bool)
  /-- LCD.ENTRYMODE, bytes 000001IS (R92). -/
  | lcdEntrymode (inc shift : Bool)
  /-- LCD.DISPCTL, bytes 00001DCB (R93). -/
  | lcdDispctl (disp cur blink : Bool)
  /-- LCD.SHIFT, bytes 0001SRxx (R94). -/
  | lcdShift (sc rl : Bool) (x : BitVec 2)
  /-- LCD.FUNCSET, bytes 001LNFxx (R95). -/
  | lcdFuncset (dl n f : Bool) (x : BitVec 2)
  /-- LCD.SETCGRAM, bytes 01aaaaaa (R96). -/
  | lcdSetcgram (addr : BitVec 6)
  /-- LCD.SETDDRAM, bytes 1aaaaaaa (R97). -/
  | lcdSetddram (addr : BitVec 7)
  /-- LCD.NONE, byte 00000000, in no class (R98). -/
  | lcdNone
  /-- PORTBYTE, dcbaLE0R: the payload of one transport write (R81, R82). -/
  | portbyte (nib : Nibble) (bl en rs : Bool)
deriving DecidableEq, Repr

end Sys2Proof
end

