-- ==== Sys2Proof/Machine/State.lean ====
section
/-! DEFINITION. The machine state as plain data: the adapter's registers (R20 to R30, R35) and the expander's port latch
(R31), and nothing else (R36). What R36 keeps out of it stands beside it in the whole system a step is a function of: the
configuration (R32), what the host and the transport still give, and the trace and statuses already observed (R8, R9;
log 1). -/

namespace Sys2Proof.Machine

/-- `MODE` (R23). -/
inductive Mode
  | uninitialized
  | ready
  | faulted
deriving DecidableEq, Repr

/-- `ST`, the status returned for a host word (R87). -/
inductive Status
  | ok
  | transportError
  | notInitializedError
  | invalidArgument
deriving DecidableEq, Repr

/-- One event of the trace (R8). -/
inductive Event
  /-- `W(b)`: a write of `b` that the transport answered with success. -/
  | W (b : Byte)
  /-- `X(b)`: a write of `b` that the transport answered with failure. -/
  | X (b : Byte)
  /-- `D(t)`: at least `t` nanoseconds pass. -/
  | D (t : Nat)
deriving DecidableEq, Repr

/-- What the host does at its port (R242): present a word, or assert reset, which it may do at any time. -/
inductive Request
  /-- Present `w` and wait for its status. -/
  | word (w : HostWord)
  /-- Present `w`, and assert reset when `n` events of its operation are complete (R222; log 14). -/
  | wordThenReset (w : HostWord) (n : Nat)
  /-- Assert reset while no operation is running, or while one waits for the transport (R209, R222). -/
  | reset
deriving DecidableEq, Repr

/-- `DS`, the mirror of the display's configuration (R24 to R30). -/
structure DisplayState where
  /-- `DS.ID`, entry-mode cursor direction, increment when set (R25). -/
  inc : Bool
  /-- `DS.S`, entry-mode auto-scroll (R26). -/
  shift : Bool
  /-- `DS.D`, display on (R27). -/
  disp : Bool
  /-- `DS.C`, cursor on (R28). -/
  cur : Bool
  /-- `DS.B`, cursor blink on (R29). -/
  blink : Bool
  /-- `DS.BL`, backlight on (R30). -/
  bl : Bool
deriving DecidableEq, Repr

/-- The adapter's own registers. -/
structure Adapter where
  /-- `MODE` (R23). -/
  mode : Mode
  /-- `DS` (R24). -/
  ds : DisplayState
  /-- `SEQ`, the number of events the current operation has completed (R22; between operations log 7). -/
  seq : Nat
  /-- `DELAY`, ticks left of the running delay (R35, R205; log 8). -/
  delay : Nat
  /-- `CURB`, the byte being sent (R21; between operations log 6). -/
  curb : Byte
  /-- `RSSEL`, the RS value of the byte being sent (R21; between operations log 6). -/
  rssel : Bool
  /-- `NIB`, the nibble byte handed to pulseNibble (R21; between operations log 6). -/
  nib : Byte
  /-- The byte of the write the transport has not answered; while there is one the host port is busy (R209, R221). -/
  outstanding : Option Byte
deriving DecidableEq, Repr

/-- The machine state: every piece of state of R37 but the configuration and the trace, which R36 keeps out of it. -/
structure MachineState where
  adapter : Adapter
  /-- `PORT`, the expander's output latch (R31). -/
  port : Byte
deriving DecidableEq, Repr

/-- What is outside the machine state and no configuration (R36; log 1): inputs still to come, oldest first, and what has
been observed since reset, oldest first. -/
structure Environment where
  /-- What the host will still do (R242). -/
  requests : List Request
  /-- What the transport will still answer (R9, R52); after the last it never answers (log 2). -/
  answers : List Answer
  /-- How many free values have been drawn, the model's own counter (log 3). -/
  draws : Nat
  /-- The trace (R8). -/
  trace : List Event
  /-- The statuses returned (R87; log 28). -/
  statuses : List Status
deriving DecidableEq, Repr

/-- The whole system, of which a step is a function: the machine state, and beside it the configuration and the
environment (R36; log 1). -/
structure State extends MachineState where
  /-- The configuration: no operation writes it (R5, R32). -/
  cfg : Config
  env : Environment
deriving DecidableEq, Repr

/-- Why the machine stops with a fault. -/
inductive Fault
  /-- Raised by `step` when the configuration is not well-formed (R6): the spec defines no machine there (93 U16).
  Safe: nothing is claimed of such a machine. -/
  | illFormedConfig
deriving DecidableEq, Repr

/-- Why an instruction is refused. -/
inductive Refusal
  /-- Raised by an arm of `exec` that has no meaning yet; no arm raises it. Safe: nothing is claimed of such a step. -/
  | notModelled (mnemonic : String)
deriving DecidableEq, Repr

/-- The adapter's registers after a reset (R221). The registers R37 leaves unspecified hold the free values of draw
`n`. -/
def resetAdapter (n : Nat) : Adapter where
  mode := .uninitialized
  ds := {
    inc := Config.dsIdAfterReset n
    shift := Config.dsSAfterReset n
    disp := Config.dsDAfterReset n
    cur := Config.dsCAfterReset n
    blink := Config.dsBAfterReset n
    bl := false }
  seq := 0
  delay := 0
  curb := Config.curbAfterReset n
  rssel := Config.rsselAfterReset n
  nib := Config.nibAfterReset n
  outstanding := none

/-- The machine right after reset (R37, R220, R221, R223), in the default configuration (R5), before the host has
presented anything; what the transport will answer is free. -/
def State.reset : State where
  cfg := defaultConfig
  adapter := resetAdapter 0
  port := Config.portAfterReset 0
  env := {
    requests := []
    answers := Config.transportAnswers
    draws := 1
    trace := []
    statuses := [] }

end Sys2Proof.Machine
end

