-- ==== Sys2Proof/Machine/Flags.lean ====
section
/-! DEFINITION. Every flag computation: the display-state mirror's updates (R24 to R30), and the numeric codes of
MODE (R23) and ST (R87). -/

namespace Sys2Proof.Machine

/-- What a successful initialize leaves in `DS`: display on, cursor off, blink off, increment, no auto-scroll; the
backlight flag is not written (R141, R30). -/
def dsAfterInit (d : DisplayState) : DisplayState :=
  { d with disp := true, cur := false, blink := false, inc := true, shift := false }

/-- `DS.D <- v` (R166). -/
def dsWithDisp (v : Bool) (d : DisplayState) : DisplayState := { d with disp := v }

/-- `DS.C <- v` (R167). -/
def dsWithCur (v : Bool) (d : DisplayState) : DisplayState := { d with cur := v }

/-- `DS.B <- v` (R168). -/
def dsWithBlink (v : Bool) (d : DisplayState) : DisplayState := { d with blink := v }

/-- `DS.BL <- on` (R169). -/
def dsWithBl (on : Bool) (d : DisplayState) : DisplayState := { d with bl := on }

/-- The code of `MODE` (R23). -/
def modeCode : Mode → BitVec 2
  | .uninitialized => 0
  | .ready => 1
  | .faulted => 2

/-- The code of `ST` (R87, R194). -/
def statusCode : Status → BitVec 2
  | .ok => 0
  | .transportError => 1
  | .notInitializedError => 2
  | .invalidArgument => 3

end Sys2Proof.Machine
end

