-- ==== Sys2Proof/Machine/Operands.lean ====
section
/-! DEFINITION. Every byte the adapter computes, as a function of its operands and the configuration: the port byte
(R82, R111), the nibbles of a byte (R56, R116), the command bytes (R92 to R97) and their delays (R98). -/

namespace Sys2Proof.Machine

/-! ## Nibbles -/

/-- The high nibble, `v[7:4]` (R10). -/
def highNibble (v : Byte) : Nibble := v.extractLsb' 4 4

/-- The low nibble, `v[3:0]` (R10). -/
def lowNibble (v : Byte) : Nibble := v.extractLsb' 0 4

/-- Recombination, `(high << 4) | low` (R56, R116). -/
def joinNibbles (high low : Nibble) : Byte := (high.setWidth 8 <<< 4) ||| low.setWidth 8

/-! ## The port byte -/

/-- One bit at the position of a role: `zext_8(v) << pos(r)` (R82). -/
def atRole (c : Config) (r : Role) (v : Bool) : Byte := (BitVec.ofBool v).setWidth 8 <<< pos c r

/-- `PortByte(nib, rs, bl, en)` (R82). Nothing is ORed in at RW (R83). -/
def portByte (c : Config) (nib : Nibble) (rs bl en : Bool) : Byte :=
  atRole c .d4 (nib.getLsbD 0) ||| atRole c .d5 (nib.getLsbD 1)
    ||| atRole c .d6 (nib.getLsbD 2) ||| atRole c .d7 (nib.getLsbD 3)
    ||| atRole c .rs rs ||| atRole c .bl bl ||| atRole c .en en

/-- `NibbleByte(nib, rs)` with the given `DS.BL` (R111). -/
def nibbleByte (c : Config) (bl : Bool) (nib : Nibble) (rs : Bool) : Byte := portByte c nib rs bl false

/-- The level of a role's line, `PORT[pos(r)]` (R31, R206). -/
def lineLevel (c : Config) (port : Byte) (r : Role) : Bool := port.getLsbD (pos c r)

/-! ## Command bytes -/

/-- A flag at a bit position of an instruction byte. -/
def flagAt (p : Nat) (v : Bool) : Byte := (BitVec.ofBool v).setWidth 8 <<< p

/-- Entry-mode-set, `0x04 | (I << 1) | S` (R92). -/
def entryMode (c : Config) (inc shift : Bool) : Byte :=
  c.lcdi.entryBase ||| flagAt c.lcdi.entryIPos inc ||| flagAt c.lcdi.entrySPos shift

/-- `DispCtl(D, C, B)`, `0x08 | (D << 2) | (C << 1) | B` (R93). -/
def dispCtl (c : Config) (disp cur blink : Bool) : Byte :=
  c.lcdi.dispBase ||| flagAt c.lcdi.dispDPos disp ||| flagAt c.lcdi.dispCPos cur ||| flagAt c.lcdi.dispBPos blink

/-- `FuncSet`, `0x20 | (N << 3) | (FONT << 2)` with `N = (ROWS > 1)` and `DL = 0` (R95). -/
def funcSet (c : Config) : Byte :=
  c.lcdi.funcBase ||| flagAt c.lcdi.funcNPos (decide (1 < c.rows)) ||| flagAt c.lcdi.funcFPos c.font

/-- The DDRAM address of a cell, `ROWBASE[row] + column` (R54). -/
def ddramAddress (c : Config) (row column : Nat) : BitVec 7 := rowBaseOf c row + BitVec.ofNat 7 column

/-- Set-DDRAM-address, `0x80 | a` (R97). -/
def setDdram (c : Config) (a : BitVec 7) : Byte := c.lcdi.ddramBase ||| a.setWidth 8

/-- Set-CGRAM-address of a glyph, `0x40 | (index << 3)` (R55, R96). -/
def setCgram (c : Config) (index : BitVec 4) : Byte := c.lcdi.cgramBase ||| (index.setWidth 8 <<< c.lcdi.glyphShift)

/-! ## Delays -/

/-- The delay classes of R98. -/
inductive DelayClass
  | long
  | short
deriving DecidableEq, Repr

/-- `DelayClass(c)`: LONG when `c[7:2] = 0` and `c[1:0] != 0` (R98). -/
def delayClass (cmd : Byte) : DelayClass :=
  if cmd.extractLsb' 2 6 = 0 ∧ cmd.extractLsb' 0 2 ≠ 0 then .long else .short

/-- `ExecDelay(c)` (R98, R115). -/
def execDelay (c : Config) (cmd : Byte) : Nat :=
  match delayClass cmd with
  | .long => c.times.long
  | .short => c.times.cmd

/-- The ticks that realise `Delay(t)`, `ceil(t / TICK_NS)` (R35, R205). -/
def delayTicks (c : Config) (t : Nat) : Nat := (t + c.tickNs - 1) / c.tickNs

end Sys2Proof.Machine
end

