-- ==== Sys2Proof/Machine/Ops.lean ====
section
/-! DEFINITION. The named operations: updates of single registers, the write primitive (R52), the delay (R11, R35), the
transmission primitives (R110 to R114), the runner of an operation's expansion, the mode check (R140), the three errors
as ONE operation `raise` (R196), the end of an operation, and reset (R220 to R223). -/

namespace Sys2Proof.Machine

/-! ## Register updates -/

/-- `MODE <- m`. -/
def setMode (m : Mode) (s : State) : State := { s with adapter := { s.adapter with mode := m } }

/-- `DS <- f(DS)`. -/
def updateDs (f : DisplayState → DisplayState) (s : State) : State :=
  { s with adapter := { s.adapter with ds := f s.adapter.ds } }

/-- `SEQ <- n` (R22). -/
def setSeq (n : Nat) (s : State) : State := { s with adapter := { s.adapter with seq := n } }

/-- `DELAY <- n` (R35). -/
def setDelay (n : Nat) (s : State) : State := { s with adapter := { s.adapter with delay := n } }

/-- `CURB <- v ; RSSEL <- rs` (R113). -/
def setCurrent (v : Byte) (rs : Bool) (s : State) : State :=
  { s with adapter := { s.adapter with curb := v, rssel := rs } }

/-- `NIB <- x` (R113). -/
def setNib (x : Byte) (s : State) : State := { s with adapter := { s.adapter with nib := x } }

/-- The write of `b` is outstanding: the transport has not answered it, and the host port is busy (R209). -/
def setOutstanding (b : Byte) (s : State) : State := { s with adapter := { s.adapter with outstanding := some b } }

/-- `PORT <- b` (R31). -/
def setPort (b : Byte) (s : State) : State := { s with port := b }

/-- `trace <- trace ++ [e]` (R8). -/
def logEvent (e : Event) (s : State) : State := { s with env := { s.env with trace := s.env.trace ++ [e] } }

/-- The transport's next answer has been given. -/
def dropAnswer (s : State) : State := { s with env := { s.env with answers := s.env.answers.tail } }

/-- `ST <- st`, returned to the host (R87). -/
def returnStatus (st : Status) (s : State) : State := { s with env := { s.env with statuses := s.env.statuses ++ [st] } }

/-- One free value has been drawn (log 3). -/
def countDraw (s : State) : State := { s with env := { s.env with draws := s.env.draws + 1 } }

/-- One more event of the operation is complete: `SEQ <- SEQ + 1` (R22). -/
def advance (s : State) : State := setSeq (s.adapter.seq + 1) s

/-! ## Events -/

/-- How far the events of an expansion got. -/
inductive Progress
  /-- Every event is complete. -/
  | done
  /-- The transport answered a write with failure (R52). -/
  | failed
  /-- The transport has not answered a write (R209). -/
  | waiting
deriving DecidableEq, Repr

/-- `MemWrite(ADDR, 1, b)` (R52) up to its answer. The TransportError of a failed write, which leaves `PORT`
unspecified, is raised where the operation ends (`conclude`). -/
def memWrite (b : Byte) (s : State) : Progress × State :=
  match s.env.answers with
  | .success :: _ => (.done, advance (setPort b (logEvent (.W b) (dropAnswer s))))
  | .failure :: _ => (.failed, logEvent (.X b) (dropAnswer s))
  | .silence :: _ => (.waiting, setOutstanding b (dropAnswer s))
  | [] => (.waiting, setOutstanding b s)

/-- `Delay(t)`: the timer is loaded with `ceil(t / TICK_NS)` and has counted to zero when the event `D(t)` is complete;
`Delay(0)` does nothing (R11, R35, R205). -/
def delayFor (t : Nat) (s : State) : State :=
  if t = 0 then s
  else advance (logEvent (.D t) (setDelay 0 (setDelay (delayTicks s.cfg t) s)))

/-- One line of an expansion's pseudocode. -/
inductive Action
  /-- `CURB <- v ; RSSEL <- rs`. -/
  | current (v : Byte) (rs : Bool)
  /-- `NIB <- x`. -/
  | nib (x : Byte)
  /-- `MemWrite(ADDR, 1, b)`. -/
  | write (b : Byte)
  /-- `Delay(t)`. -/
  | delay (t : Nat)
deriving DecidableEq, Repr

/-- Run an expansion in order, each line after the one before is complete, up to the first write that does not succeed
(R65, R110, R144). -/
def perform : List Action → State → Progress × State
  | [], s => (.done, s)
  | .current v rs :: as, s => perform as (setCurrent v rs s)
  | .nib x :: as, s => perform as (setNib x s)
  | .delay t :: as, s => perform as (delayFor t s)
  | .write b :: as, s =>
    match memWrite b s with
    | (.done, s') => perform as s'
    | (.failed, s') => (.failed, s')
    | (.waiting, s') => (.waiting, s')

/-! ## Transmission primitives -/

/-- `pulseNibble(x)` (R112). -/
def pulseNibble (c : Config) (x : Byte) : List Action :=
  [.write (x ||| enableMask c), .delay c.times.enh, .write x, .delay c.times.enl]

/-- `NIB <- NibbleByte(nib, rs) ; pulseNibble(NIB)` (R113). -/
def sendNibble (c : Config) (bl : Bool) (nib : Nibble) (rs : Bool) : List Action :=
  .nib (nibbleByte c bl nib rs) :: pulseNibble c (nibbleByte c bl nib rs)

/-- `writeByte(v, rs)` (R113): high nibble first. -/
def writeByte (c : Config) (bl : Bool) (v : Byte) (rs : Bool) : List Action :=
  .current v rs :: (sendNibble c bl (highNibble v) rs ++ sendNibble c bl (lowNibble v) rs)

/-- `rawNibble(n)` (R114): one unpaired pulse with RS = 0. -/
def rawNibble (c : Config) (bl : Bool) (n : Nibble) : List Action := sendNibble c bl n false

/-- The body of sendCommand after its mode check (R142). -/
def commandActions (c : Config) (bl : Bool) (cmd : Byte) : List Action :=
  writeByte c bl cmd false ++ [.delay (execDelay c cmd)]

/-- The body of sendData after its mode check (R143). -/
def dataActions (c : Config) (bl : Bool) (value : Byte) : List Action :=
  writeByte c bl value true ++ [.delay c.times.data]

/-- The raw nibbles of initialize with the delays between them: `T_INIT1` after the first, `T_INIT2` after each later
one (R99, R141). -/
def handshake (c : Config) (bl : Bool) : List Action :=
  match c.lcdi.initNibbles with
  | [] => []
  | n :: ns =>
    rawNibble c bl n ++ .delay c.times.init1 :: ns.flatMap fun m => rawNibble c bl m ++ [.delay c.times.init2]

/-- The expansion of initialize (R141). -/
def initActions (c : Config) (bl : Bool) : List Action :=
  .delay c.times.powerup :: handshake c bl
    ++ writeByte c bl (funcSet c) false ++ [.delay (execDelay c (funcSet c))]
    ++ writeByte c bl (dispCtl c true false false) false ++ [.delay c.times.cmd]
    ++ writeByte c bl c.lcdi.clear false ++ [.delay c.times.long]
    ++ writeByte c bl (entryMode c true false) false ++ [.delay c.times.cmd]

/-- The expansion of defineCustomGlyph after its checks (R170). -/
def glyphActions (c : Config) (bl : Bool) (index : BitVec 4) (rows : List Byte) : List Action :=
  commandActions c bl (setCgram c index) ++ rows.flatMap (dataActions c bl)

/-- The one write of setBacklight, made only under `BL_IMMEDIATE` (R169). -/
def backlightActions (c : Config) (on : Bool) : List Action :=
  if c.blImmediate then [.write (portByte c 0 false on false)] else []

/-! ## Errors, and the end of an operation -/

/-- The three errors (R190). -/
inductive Error
  | transportError
  | notInitializedError
  | invalidArgument
deriving DecidableEq, Repr

/-- `raise E()` (R196): the state changes of the error, and its status. A TransportError leaves `PORT` at a free value
(92 D9; log 3). -/
def raise (e : Error) (s : State) : State :=
  match e with
  | .transportError =>
    returnStatus .transportError (setMode .faulted (countDraw (setPort (Config.portAfterFailure s.env.draws) s)))
  | .notInitializedError => returnStatus .notInitializedError s
  | .invalidArgument => returnStatus .invalidArgument s

/-- The end of an operation whose expansion has run: on success its pending state change is committed and it returns OK
(R160 (d)); a failed write raises TransportError; an unanswered write leaves it waiting, with no status (R209). -/
def conclude (commit : State → State) (r : Progress × State) : State :=
  match r.1 with
  | .done => returnStatus .ok (commit r.2)
  | .failed => raise .transportError r.2
  | .waiting => r.2

/-- Run an operation's expansion from its first event (R22) and end the operation. -/
def transmit (acts : List Action) (commit : State → State) (s : State) : State :=
  conclude commit (perform acts (setSeq 0 s))

/-- `RequireReady()` (R140), then the rest of the operation. -/
def requireReady (body : State → State) (s : State) : State :=
  match s.adapter.mode with
  | .ready => body s
  | .uninitialized => raise .notInitializedError s
  | .faulted => raise .notInitializedError s

/-- The body of sendCommand after its mode check (R142, R160 (c)), with a state change to commit on success
(R160 (d)). -/
def transmitCommand (cmd : Byte) (commit : State → State) (s : State) : State :=
  transmit (commandActions s.cfg s.adapter.ds.bl cmd) commit s

/-- sendCommand (R142), with a state change to commit on success (R160 (d)). -/
def sendCommand (cmd : Byte) (commit : State → State) (s : State) : State :=
  requireReady (transmitCommand cmd commit) s

/-- sendData (R143). -/
def sendData (value : Byte) (s : State) : State :=
  requireReady (fun s => transmit (dataActions s.cfg s.adapter.ds.bl value) id s) s

/-! ## Reset -/

/-- Reset asserted (R220 to R223): every register takes its reset value, an operation in progress is abandoned without a
status, the trace is empty, `PORT` is any value and the configuration stays. The unspecified values are free values of
the current draw (log 4, 5, 6, 14). -/
def assertReset (s : State) : State where
  cfg := s.cfg
  adapter := resetAdapter s.env.draws
  port := Config.portAfterReset s.env.draws
  env := { s.env with draws := s.env.draws + 1, trace := [], statuses := [] }

end Sys2Proof.Machine
end

