-- ==== Sys2Proof/Machine/CoreOperations.lean ====
section
/-! DEFINITION. The meanings of the core operations INIT, CMD and DATA (R141 to R143). -/

namespace Sys2Proof.Machine

/-- INIT, initialize() (R141): allowed in every mode; on success `DS` takes the defaults and `MODE` becomes Ready. -/
def execInit (s : State) : Host.Outcome State Fault Refusal :=
  .next (transmit (initActions s.cfg s.adapter.ds.bl) (fun t => setMode .ready (updateDs dsAfterInit t)) s)

/-- CMD, sendCommand(cmd) (R142): any byte, unvalidated; `DS` is not written (C3). -/
def execCmd (cmd : Byte) (s : State) : Host.Outcome State Fault Refusal :=
  .next (sendCommand cmd id s)

/-- DATA, sendData(value) (R143): any byte. -/
def execData (value : Byte) (s : State) : Host.Outcome State Fault Refusal :=
  .next (sendData value s)

end Sys2Proof.Machine
end

