-- ==== Sys2Proof/Machine/DisplayOperations.lean ====
section
/-! DEFINITION. The meanings of the display operations (R160 to R170), and writeString (R165), which has no host
code. -/

namespace Sys2Proof.Machine

/-- CLEAR, clear() (R161). -/
def execClear (s : State) : Host.Outcome State Fault Refusal :=
  .next (sendCommand s.cfg.lcdi.clear id s)

/-- HOME, home() (R162). -/
def execHome (s : State) : Host.Outcome State Fault Refusal :=
  .next (sendCommand s.cfg.lcdi.home id s)

/-- SETCUR, setCursor(column, row) (R163): the mode check, then the range checks, then the command. -/
def execSetcur (row : BitVec 4) (column : Byte) (s : State) : Host.Outcome State Fault Refusal :=
  .next (requireReady (fun s =>
    if s.cfg.rows ≤ row.toNat then raise .invalidArgument s
    else if s.cfg.cols ≤ column.toNat then raise .invalidArgument s
    else transmitCommand (setDdram s.cfg (ddramAddress s.cfg row.toNat column.toNat)) id s) s)

/-- WRCHAR, writeCharacter(byte) (R164). -/
def execWrchar (byte : Byte) (s : State) : Host.Outcome State Fault Refusal :=
  .next (sendData byte s)

/-- DISPVIS, setDisplayVisible(v) (R166): the flag is committed on success. -/
def execDispvis (v : Bool) (s : State) : Host.Outcome State Fault Refusal :=
  .next (sendCommand (dispCtl s.cfg v s.adapter.ds.cur s.adapter.ds.blink) (updateDs (dsWithDisp v)) s)

/-- CURVIS, setCursorVisible(v) (R167): the flag is committed on success. -/
def execCurvis (v : Bool) (s : State) : Host.Outcome State Fault Refusal :=
  .next (sendCommand (dispCtl s.cfg s.adapter.ds.disp v s.adapter.ds.blink) (updateDs (dsWithCur v)) s)

/-- CURBLINK, setCursorBlink(v) (R168): the flag is committed on success. -/
def execCurblink (v : Bool) (s : State) : Host.Outcome State Fault Refusal :=
  .next (sendCommand (dispCtl s.cfg s.adapter.ds.disp s.adapter.ds.cur v) (updateDs (dsWithBlink v)) s)

/-- BACKLIGHT, setBacklight(on) (R169): the flag is written before the one write `BL_IMMEDIATE` asks for. -/
def execBacklight (on : Bool) (s : State) : Host.Outcome State Fault Refusal :=
  .next (requireReady (fun s => transmit (backlightActions s.cfg on) id (updateDs (dsWithBl on) s)) s)

/-- GLYPH, defineCustomGlyph(index, rows) (R170): the mode check, then the index check, then the address command and
the rows in index order. -/
def execGlyph (index : BitVec 4) (rows : List Byte) (s : State) : Host.Outcome State Fault Refusal :=
  .next (requireReady (fun s =>
    if 7 < index.toNat then raise .invalidArgument s
    else transmit (glyphActions s.cfg s.adapter.ds.bl index rows) id s) s)

/-- writeString(bytes) (R165): one mode check, then sendData of each byte in index order; the empty string is legal. -/
def writeString (bytes : List Byte) (s : State) : State :=
  requireReady (fun s => transmit (bytes.flatMap (dataActions s.cfg s.adapter.ds.bl)) id s) s

end Sys2Proof.Machine
end

