-- ==== Sys2Proof/WellFormed.lean ====
section
/-! DEFINITION. Which terms of Instr stand for an instruction: a glyph has exactly eight rows (R86, R170). Every other
operand's width is in its type. -/

namespace Sys2Proof

/-- The instruction is one a code of the table can carry. -/
def Instr.wf : Instr → Bool
  | .init => true
  | .cmd _ => true
  | .data _ => true
  | .clear => true
  | .home => true
  | .setcur _ _ => true
  | .wrchar _ => true
  | .dispvis _ => true
  | .curvis _ => true
  | .curblink _ => true
  | .backlight _ => true
  | .glyph _ rows => rows.length == 8
  | .reservedC _ => true
  | .reservedD _ => true
  | .reservedE _ => true
  | .reservedF _ => true
  | .lcdClear => true
  | .lcdHome _ => true
  | .lcdEntrymode _ _ => true
  | .lcdDispctl _ _ _ => true
  | .lcdShift _ _ _ => true
  | .lcdFuncset _ _ _ _ => true
  | .lcdSetcgram _ => true
  | .lcdSetddram _ => true
  | .lcdNone => true
  | .portbyte _ _ _ _ => true

end Sys2Proof
end

