-- ==== Sys2Proof/Decode.lean ====
section
/-! DEFINITION. The decoder and the encoder of the three encodings of R80: the host word (R84 to R88), the LCD
instruction byte (R89 to R98) and the port byte under the default mapping (R81, R82). The decoder is total and rejects
by name (R88, R100). -/

namespace Sys2Proof

/-- A code at one of the three interfaces (R80). -/
inductive Code
  | host (w : HostWord)
  | lcd (c : Byte)
  | port (b : Byte)
deriving DecidableEq, Repr

/-- Why a code is no instruction. -/
inductive DecodeError
  /-- A host word whose row does not use field `a` has `a` not zero (R88). -/
  | fieldA
  /-- A host word whose row does not use field `b` has `b` not zero (R88). -/
  | fieldB
  /-- A boolean operation has `b[7:1]` not zero (R88). -/
  | boolean
  /-- A host word whose row does not use field `pl` has `pl` not zero (R88). -/
  | payload
  /-- A port byte has its RW bit set, which the adapter never writes (R83). -/
  | readWrite
deriving DecidableEq, Repr

/-! ## The host word -/

/-- Field `op`, HW[79:76] (R84). -/
def hostOp (w : HostWord) : BitVec 4 := w.extractLsb' 76 4

/-- Field `a`, HW[75:72] (R84). -/
def hostA (w : HostWord) : BitVec 4 := w.extractLsb' 72 4

/-- Field `b`, HW[71:64] (R84). -/
def hostB (w : HostWord) : Byte := w.extractLsb' 64 8

/-- Field `pl`, HW[63:0] (R84). -/
def hostPl (w : HostWord) : BitVec 64 := w.extractLsb' 0 64

/-- A host word from its four fields (R84). -/
def hostWord (op a : BitVec 4) (b : Byte) (pl : BitVec 64) : HostWord := op ++ a ++ b ++ pl

/-- Glyph row `j` is `pl[8j+7:8j]` (R86). -/
def glyphRows (pl : BitVec 64) : List Byte := (List.range 8).map fun j => pl.extractLsb' (8 * j) 8

/-- The payload that carries the rows, row 0 least significant (R86). -/
def glyphPayload : List Byte → BitVec 64
  | [] => 0
  | r :: rs => (glyphPayload rs <<< 8) ||| r.setWidth 64

/-- A row of R85 that uses no field. -/
def noOperand (w : HostWord) (i : Instr) : Except DecodeError Instr :=
  if hostA w ≠ 0 then .error .fieldA
  else if hostB w ≠ 0 then .error .fieldB
  else if hostPl w ≠ 0 then .error .payload
  else .ok i

/-- A row of R85 whose only operand is the byte `b`. -/
def byteOperand (w : HostWord) (f : Byte → Instr) : Except DecodeError Instr :=
  if hostA w ≠ 0 then .error .fieldA
  else if hostPl w ≠ 0 then .error .payload
  else .ok (f (hostB w))

/-- A row of R85 whose only operand is the boolean `b[0]`, with `b[7:1]` zero. -/
def boolOperand (w : HostWord) (f : Bool → Instr) : Except DecodeError Instr :=
  if hostA w ≠ 0 then .error .fieldA
  else if (hostB w).extractLsb' 1 7 ≠ 0 then .error .boolean
  else if hostPl w ≠ 0 then .error .payload
  else .ok (f ((hostB w).getLsbD 0))

/-- The SETCUR row of R85: row in `a`, column in `b`. -/
def cursorOperand (w : HostWord) : Except DecodeError Instr :=
  if hostPl w ≠ 0 then .error .payload
  else .ok (.setcur (hostA w) (hostB w))

/-- The GLYPH row of R85: index in `a`, rows in `pl`. -/
def glyphOperand (w : HostWord) : Except DecodeError Instr :=
  if hostB w ≠ 0 then .error .fieldB
  else .ok (.glyph (hostA w) (glyphRows (hostPl w)))

/-- The host opcode map (R85), total on all words (R100). -/
def decodeHost (w : HostWord) : Except DecodeError Instr :=
  match (hostOp w).toNat with
  | 0x0 => noOperand w .init
  | 0x1 => byteOperand w .cmd
  | 0x2 => byteOperand w .data
  | 0x3 => noOperand w .clear
  | 0x4 => noOperand w .home
  | 0x5 => cursorOperand w
  | 0x6 => byteOperand w .wrchar
  | 0x7 => boolOperand w .dispvis
  | 0x8 => boolOperand w .curvis
  | 0x9 => boolOperand w .curblink
  | 0xA => boolOperand w .backlight
  | 0xB => glyphOperand w
  | 0xC => .ok (.reservedC (w.extractLsb' 0 76))
  | 0xD => .ok (.reservedD (w.extractLsb' 0 76))
  | 0xE => .ok (.reservedE (w.extractLsb' 0 76))
  | _ => .ok (.reservedF (w.extractLsb' 0 76))

/-- The word of a byte operation. -/
def byteWord (op : BitVec 4) (b : Byte) : HostWord := hostWord op 0 b 0

/-- The word of a boolean operation: the boolean in `b[0]` (R86). -/
def boolWord (op : BitVec 4) (v : Bool) : HostWord := hostWord op 0 ((BitVec.ofBool v).setWidth 8) 0

/-- A reserved word: the code and the other 76 bits (R88). -/
def reservedWord (op : BitVec 4) (rest : BitVec 76) : HostWord := op ++ rest

/-! ## The LCD instruction byte -/

/-- 00000001 (R90). -/
def lcdClearByte : Byte := 0x01

/-- 0000001x (R91). -/
def lcdHomeByte (x : Bool) : Byte := 1#7 ++ BitVec.ofBool x

/-- 000001IS (R92). -/
def lcdEntrymodeByte (inc shift : Bool) : Byte := 1#6 ++ BitVec.ofBool inc ++ BitVec.ofBool shift

/-- 00001DCB (R93). -/
def lcdDispctlByte (disp cur blink : Bool) : Byte :=
  1#5 ++ BitVec.ofBool disp ++ BitVec.ofBool cur ++ BitVec.ofBool blink

/-- 0001SRxx (R94). -/
def lcdShiftByte (sc rl : Bool) (x : BitVec 2) : Byte := 1#4 ++ BitVec.ofBool sc ++ BitVec.ofBool rl ++ x

/-- 001LNFxx (R95). -/
def lcdFuncsetByte (dl n f : Bool) (x : BitVec 2) : Byte :=
  1#3 ++ BitVec.ofBool dl ++ BitVec.ofBool n ++ BitVec.ofBool f ++ x

/-- 01aaaaaa (R96). -/
def lcdSetcgramByte (addr : BitVec 6) : Byte := 1#2 ++ addr

/-- 1aaaaaaa (R97). -/
def lcdSetddramByte (addr : BitVec 7) : Byte := 1#1 ++ addr

/-- 00000000 (R98). -/
def lcdNoneByte : Byte := 0x00

/-- The class of an LCD instruction byte is decided by its highest set bit (R89). -/
def decodeLcd (c : Byte) : Instr :=
  if c.getLsbD 7 then .lcdSetddram (c.extractLsb' 0 7)
  else if c.getLsbD 6 then .lcdSetcgram (c.extractLsb' 0 6)
  else if c.getLsbD 5 then .lcdFuncset (c.getLsbD 4) (c.getLsbD 3) (c.getLsbD 2) (c.extractLsb' 0 2)
  else if c.getLsbD 4 then .lcdShift (c.getLsbD 3) (c.getLsbD 2) (c.extractLsb' 0 2)
  else if c.getLsbD 3 then .lcdDispctl (c.getLsbD 2) (c.getLsbD 1) (c.getLsbD 0)
  else if c.getLsbD 2 then .lcdEntrymode (c.getLsbD 1) (c.getLsbD 0)
  else if c.getLsbD 1 then .lcdHome (c.getLsbD 0)
  else if c.getLsbD 0 then .lcdClear
  else .lcdNone

/-! ## The port byte, default mapping -/

/-- dcbaLE0R (R81). -/
def portbyteByte (nib : Nibble) (bl en rs : Bool) : Byte :=
  nib ++ BitVec.ofBool bl ++ BitVec.ofBool en ++ 0#1 ++ BitVec.ofBool rs

/-- A port byte has RW clear (R83) and its fields where R81 puts them. -/
def decodePort (b : Byte) : Except DecodeError Instr :=
  if b.getLsbD 1 then .error .readWrite
  else .ok (.portbyte (b.extractLsb' 4 4) (b.getLsbD 3) (b.getLsbD 2) (b.getLsbD 0))

/-! ## All three -/

/-- The decoder. -/
def decode : Code → Except DecodeError Instr
  | .host w => decodeHost w
  | .lcd c => .ok (decodeLcd c)
  | .port b => decodePort b

/-- The encoder. -/
def encode : Instr → Code
  | .init => .host (hostWord 0x0 0 0 0)
  | .cmd c => .host (byteWord 0x1 c)
  | .data v => .host (byteWord 0x2 v)
  | .clear => .host (hostWord 0x3 0 0 0)
  | .home => .host (hostWord 0x4 0 0 0)
  | .setcur row column => .host (hostWord 0x5 row column 0)
  | .wrchar b => .host (byteWord 0x6 b)
  | .dispvis v => .host (boolWord 0x7 v)
  | .curvis v => .host (boolWord 0x8 v)
  | .curblink v => .host (boolWord 0x9 v)
  | .backlight on => .host (boolWord 0xA on)
  | .glyph index rows => .host (hostWord 0xB index 0 (glyphPayload rows))
  | .reservedC rest => .host (reservedWord 0xC rest)
  | .reservedD rest => .host (reservedWord 0xD rest)
  | .reservedE rest => .host (reservedWord 0xE rest)
  | .reservedF rest => .host (reservedWord 0xF rest)
  | .lcdClear => .lcd lcdClearByte
  | .lcdHome x => .lcd (lcdHomeByte x)
  | .lcdEntrymode inc shift => .lcd (lcdEntrymodeByte inc shift)
  | .lcdDispctl disp cur blink => .lcd (lcdDispctlByte disp cur blink)
  | .lcdShift sc rl x => .lcd (lcdShiftByte sc rl x)
  | .lcdFuncset dl n f x => .lcd (lcdFuncsetByte dl n f x)
  | .lcdSetcgram addr => .lcd (lcdSetcgramByte addr)
  | .lcdSetddram addr => .lcd (lcdSetddramByte addr)
  | .lcdNone => .lcd lcdNoneByte
  | .portbyte nib bl en rs => .port (portbyteByte nib bl en rs)

/-- The instruction of a table word, its bits numbered as the table numbers them. An 80-bit word is a host word. An
8-bit word is read as an LCD instruction byte: every byte is one (R89, R98), and a port byte is the payload of a write,
which nothing fetches (log 19, DESIGN CHOICE, safe). -/
def decodeTableWord (nbits w : Nat) : Option Instr :=
  if nbits = 80 then (decode (.host (BitVec.ofNat 80 w))).toOption
  else if nbits = 8 then (decode (.lcd (BitVec.ofNat 8 w))).toOption
  else none

end Sys2Proof
end

