-- ==== Sys2Proof/Machine/LcdBytes.lean ====
section
/-! DEFINITION. The meanings of the LCD instruction bytes and of the port byte at the adapter. The adapter transmits an
LCD instruction byte unchanged, as sendCommand does, with the delay of its class (R89, R98, R142); what the display does
with it is outside the block (R3, R89). DESIGN CHOICE, safe; log 18. -/

namespace Sys2Proof.Machine

/-- LCD.CLEAR: the byte 0x01, LONG (R90, R98). -/
def execLcdClear (s : State) : Host.Outcome State Fault Refusal := .next (sendCommand lcdClearByte id s)

/-- LCD.HOME: the bytes 0x02 and 0x03, LONG (R91, R98). -/
def execLcdHome (x : Bool) (s : State) : Host.Outcome State Fault Refusal := .next (sendCommand (lcdHomeByte x) id s)

/-- LCD.ENTRYMODE: SHORT; the mirror `DS` is not written (R92, R98, R231). -/
def execLcdEntrymode (inc shift : Bool) (s : State) : Host.Outcome State Fault Refusal :=
  .next (sendCommand (lcdEntrymodeByte inc shift) id s)

/-- LCD.DISPCTL: SHORT; the mirror `DS` is not written (R93, R98, R231). -/
def execLcdDispctl (disp cur blink : Bool) (s : State) : Host.Outcome State Fault Refusal :=
  .next (sendCommand (lcdDispctlByte disp cur blink) id s)

/-- LCD.SHIFT: SHORT (R94, R98). -/
def execLcdShift (sc rl : Bool) (x : BitVec 2) (s : State) : Host.Outcome State Fault Refusal :=
  .next (sendCommand (lcdShiftByte sc rl x) id s)

/-- LCD.FUNCSET: SHORT; `MODE` stays Ready even when the byte selects the 8-bit interface (R95, R98, R232). -/
def execLcdFuncset (dl n f : Bool) (x : BitVec 2) (s : State) : Host.Outcome State Fault Refusal :=
  .next (sendCommand (lcdFuncsetByte dl n f x) id s)

/-- LCD.SETCGRAM: SHORT (R96, R98). -/
def execLcdSetcgram (addr : BitVec 6) (s : State) : Host.Outcome State Fault Refusal :=
  .next (sendCommand (lcdSetcgramByte addr) id s)

/-- LCD.SETDDRAM: SHORT (R97, R98). -/
def execLcdSetddram (addr : BitVec 7) (s : State) : Host.Outcome State Fault Refusal :=
  .next (sendCommand (lcdSetddramByte addr) id s)

/-- LCD.NONE: the byte 0x00 is no instruction of the display and is transmitted like any other, SHORT (R98, 93 U6). -/
def execLcdNone (s : State) : Host.Outcome State Fault Refusal := .next (sendCommand lcdNoneByte id s)

/-- PORTBYTE: one transport write of `PortByte(nib, rs, bl, en)` to `ADDR`, with no mode check (R52, R82, R206). No
host word selects it (R80). DESIGN CHOICE, safe; log 19. -/
def execPortbyte (nib : Nibble) (bl en rs : Bool) (s : State) : Host.Outcome State Fault Refusal :=
  .next (transmit [.write (portByte s.cfg nib rs bl en)] id s)

end Sys2Proof.Machine
end

