-- ==== Sys2Proof/Machine/ReservedCodes.lean ====
section
/-! DEFINITION. The reserved host codes 0xC to 0xF and every other illegal word (R88): InvalidArgument in every mode,
before the mode check (R195), with no event and no state change. -/

namespace Sys2Proof.Machine

/-- An illegal host word (R88). -/
def illegalWord (s : State) : State := raise .invalidArgument s

/-- RESERVED_C (R88). -/
def execReservedC (_rest : BitVec 76) (s : State) : Host.Outcome State Fault Refusal := .next (illegalWord s)

/-- RESERVED_D (R88). -/
def execReservedD (_rest : BitVec 76) (s : State) : Host.Outcome State Fault Refusal := .next (illegalWord s)

/-- RESERVED_E (R88). -/
def execReservedE (_rest : BitVec 76) (s : State) : Host.Outcome State Fault Refusal := .next (illegalWord s)

/-- RESERVED_F (R88). -/
def execReservedF (_rest : BitVec 76) (s : State) : Host.Outcome State Fault Refusal := .next (illegalWord s)

end Sys2Proof.Machine
end

