-- ==== Sys2Proof/Machine/Dispatch.lean ====
section
/-! DEFINITION. One arm per instruction, each one call of its meaning. -/

namespace Sys2Proof.Machine

def exec (i : Instr) (s : State) : Host.Outcome State Fault Refusal :=
  match i with
  | .init => Sys2Proof.Machine.execInit s
  | .cmd cmd => Sys2Proof.Machine.execCmd cmd s
  | .data value => Sys2Proof.Machine.execData value s
  | .clear => Sys2Proof.Machine.execClear s
  | .home => Sys2Proof.Machine.execHome s
  | .setcur row column => Sys2Proof.Machine.execSetcur row column s
  | .wrchar byte => Sys2Proof.Machine.execWrchar byte s
  | .dispvis v => Sys2Proof.Machine.execDispvis v s
  | .curvis v => Sys2Proof.Machine.execCurvis v s
  | .curblink v => Sys2Proof.Machine.execCurblink v s
  | .backlight on => Sys2Proof.Machine.execBacklight on s
  | .glyph index rows => Sys2Proof.Machine.execGlyph index rows s
  | .reservedC rest => Sys2Proof.Machine.execReservedC rest s
  | .reservedD rest => Sys2Proof.Machine.execReservedD rest s
  | .reservedE rest => Sys2Proof.Machine.execReservedE rest s
  | .reservedF rest => Sys2Proof.Machine.execReservedF rest s
  | .lcdClear => Sys2Proof.Machine.execLcdClear s
  | .lcdHome x => Sys2Proof.Machine.execLcdHome x s
  | .lcdEntrymode inc shift => Sys2Proof.Machine.execLcdEntrymode inc shift s
  | .lcdDispctl disp cur blink => Sys2Proof.Machine.execLcdDispctl disp cur blink s
  | .lcdShift sc rl x => Sys2Proof.Machine.execLcdShift sc rl x s
  | .lcdFuncset dl n f x => Sys2Proof.Machine.execLcdFuncset dl n f x s
  | .lcdSetcgram addr => Sys2Proof.Machine.execLcdSetcgram addr s
  | .lcdSetddram addr => Sys2Proof.Machine.execLcdSetddram addr s
  | .lcdNone => Sys2Proof.Machine.execLcdNone s
  | .portbyte nib bl en rs => Sys2Proof.Machine.execPortbyte nib bl en rs s

end Sys2Proof.Machine
end

