-- ==== Sys2Proof/Machine/Observer.lean ====
section
/-! DEFINITION. Functions of the trace, none of them state of the adapter (R36): the event lists of R110 and of each
operation's rule, the list a failing write leaves (R110), the transport's calls (R51, R53), the observer of R62 to R64,
and the minimum duration (R240). -/

namespace Sys2Proof.Machine

/-! ## The event lists of the operations' rules -/

/-- `D(t)`; a `D(0)` is no event (R8). -/
def idle (t : Nat) : List Event := if t = 0 then [] else [.D t]

/-- `P(x)` (R110). -/
def pulseEvents (c : Config) (x : Byte) : List Event :=
  [.W (x ||| enableMask c)] ++ idle c.times.enh ++ [.W x] ++ idle c.times.enl

/-- `B(v, rs)` with the given `DS.BL` (R110). -/
def byteEvents (c : Config) (bl : Bool) (v : Byte) (rs : Bool) : List Event :=
  pulseEvents c (nibbleByte c bl (highNibble v) rs) ++ pulseEvents c (nibbleByte c bl (lowNibble v) rs)

/-- The event list of sendCommand (R142). -/
def commandEvents (c : Config) (bl : Bool) (cmd : Byte) : List Event :=
  byteEvents c bl cmd false ++ idle (execDelay c cmd)

/-- The event list of sendData (R143). -/
def dataEvents (c : Config) (bl : Bool) (value : Byte) : List Event :=
  byteEvents c bl value true ++ idle c.times.data

/-- The event list of the raw nibbles of initialize (R141). -/
def handshakeEvents (c : Config) (bl : Bool) : List Event :=
  match c.lcdi.initNibbles with
  | [] => []
  | n :: ns =>
    pulseEvents c (nibbleByte c bl n false) ++ idle c.times.init1
      ++ ns.flatMap fun m => pulseEvents c (nibbleByte c bl m false) ++ idle c.times.init2

/-- The event list of initialize (R141). -/
def initEvents (c : Config) (bl : Bool) : List Event :=
  idle c.times.powerup ++ handshakeEvents c bl
    ++ byteEvents c bl (funcSet c) false ++ idle (execDelay c (funcSet c))
    ++ byteEvents c bl (dispCtl c true false false) false ++ idle c.times.cmd
    ++ byteEvents c bl c.lcdi.clear false ++ idle c.times.long
    ++ byteEvents c bl (entryMode c true false) false ++ idle c.times.cmd

/-- The event list of defineCustomGlyph (R170). -/
def glyphEvents (c : Config) (bl : Bool) (index : BitVec 4) (rows : List Byte) : List Event :=
  commandEvents c bl (setCgram c index) ++ rows.flatMap (dataEvents c bl)

/-- The event list of setBacklight (R169). -/
def backlightEvents (c : Config) (on : Bool) : List Event :=
  if c.blImmediate then [.W (portByte c 0 false on false)] else []

/-- The event list an instruction has in a state where its checks pass and no write fails: the list its rule gives. -/
def expansion (i : Instr) (s : State) : List Event :=
  let c := s.cfg
  let d := s.adapter.ds
  match i with
  | .init => initEvents c d.bl
  | .cmd cmd => commandEvents c d.bl cmd
  | .data value => dataEvents c d.bl value
  | .clear => commandEvents c d.bl c.lcdi.clear
  | .home => commandEvents c d.bl c.lcdi.home
  | .setcur row column => commandEvents c d.bl (setDdram c (ddramAddress c row.toNat column.toNat))
  | .wrchar byte => dataEvents c d.bl byte
  | .dispvis v => commandEvents c d.bl (dispCtl c v d.cur d.blink)
  | .curvis v => commandEvents c d.bl (dispCtl c d.disp v d.blink)
  | .curblink v => commandEvents c d.bl (dispCtl c d.disp d.cur v)
  | .backlight on => backlightEvents c on
  | .glyph index rows => glyphEvents c d.bl index rows
  | .reservedC _ => []
  | .reservedD _ => []
  | .reservedE _ => []
  | .reservedF _ => []
  | .lcdClear => commandEvents c d.bl lcdClearByte
  | .lcdHome x => commandEvents c d.bl (lcdHomeByte x)
  | .lcdEntrymode inc shift => commandEvents c d.bl (lcdEntrymodeByte inc shift)
  | .lcdDispctl disp cur blink => commandEvents c d.bl (lcdDispctlByte disp cur blink)
  | .lcdShift sc rl x => commandEvents c d.bl (lcdShiftByte sc rl x)
  | .lcdFuncset dl n f x => commandEvents c d.bl (lcdFuncsetByte dl n f x)
  | .lcdSetcgram addr => commandEvents c d.bl (lcdSetcgramByte addr)
  | .lcdSetddram addr => commandEvents c d.bl (lcdSetddramByte addr)
  | .lcdNone => commandEvents c d.bl lcdNoneByte
  | .portbyte nib bl en rs => [.W (portByte c nib rs bl en)]

/-! ## Writes of a trace -/

/-- The payload of a write event, a `W` or an `X` (R8). -/
def payload? : Event → Option Byte
  | .W b => some b
  | .X b => some b
  | .D _ => none

/-- The payloads of a trace's writes, in order. -/
def payloads (t : List Event) : List Byte := t.filterMap payload?

/-- The number of writes, "bus accesses", of a trace (R8). -/
def writeCount (t : List Event) : Nat := (payloads t).length

/-- The transport calls of a trace: each is one byte to `ADDR` (R51, R53). -/
def transportCalls (c : Config) (t : List Event) : List (BitVec 7 × List Byte) :=
  (payloads t).map fun b => (c.addr, [b])

/-- `PORT` after a trace whose writes all succeed, if it was `p` before (R31). -/
def portAfter (p : Byte) : List Event → Byte
  | [] => p
  | .W b :: es => portAfter b es
  | .X _ :: es => portAfter p es
  | .D _ :: es => portAfter p es

/-- The events before write number `k`, counted from 0. -/
def beforeWrite : Nat → List Event → List Event
  | _, [] => []
  | 0, .W _ :: _ => []
  | k + 1, .W b :: es => .W b :: beforeWrite k es
  | k, .X b :: es => .X b :: beforeWrite k es
  | k, .D t :: es => .D t :: beforeWrite k es

/-- The list of a run whose write number `k`, counted from 0, fails: cut after that write, which is recorded as `X`
(R110). -/
def cutAtWrite : Nat → List Event → List Event
  | _, [] => []
  | 0, .W b :: _ => [.X b]
  | k + 1, .W b :: es => .W b :: cutAtWrite k es
  | k, .X b :: es => .X b :: cutAtWrite k es
  | k, .D t :: es => .D t :: cutAtWrite k es

/-! ## What the display sees -/

/-- A pulse: the run of payloads with EN set, oldest first, and the payload with EN clear that ends it (R62). -/
structure Pulse where
  run : List Byte
  ending : Byte
deriving DecidableEq, Repr

/-- A payload has its EN bit set. -/
def enableSet (c : Config) (b : Byte) : Bool := b.getLsbD (pos c .en)

/-- The pulses of a trace of which `run` has been read: an `X` ends a run without a pulse (R62; log 23). -/
def pulsesFrom (c : Config) (run : List Byte) : List Event → List Pulse
  | [] => []
  | .W b :: es =>
    if enableSet c b then pulsesFrom c (run ++ [b]) es
    else if run = [] then pulsesFrom c [] es
    else ⟨run, b⟩ :: pulsesFrom c [] es
  | .X _ :: es => pulsesFrom c [] es
  | .D _ :: es => pulsesFrom c run es

/-- The latch events of a trace (R62). -/
def pulses (c : Config) (t : List Event) : List Pulse := pulsesFrom c [] t

/-- What the display latches at a pulse (R62). -/
structure Sample where
  rs : Bool
  nib : Nibble
deriving DecidableEq, Repr

/-- The sample of a pulse, read from the last payload of its run (R62). -/
def sampleOf (c : Config) (p : Pulse) : Sample :=
  let b := p.run.getLastD 0
  ⟨lineLevel c b .rs,
    BitVec.ofBool (lineLevel c b .d7) ++ BitVec.ofBool (lineLevel c b .d6)
      ++ BitVec.ofBool (lineLevel c b .d5) ++ BitVec.ofBool (lineLevel c b .d4)⟩

/-- A pulse is clean: one EN-high write, and the ending differs from it only in EN (R63). -/
def cleanPulse (c : Config) (p : Pulse) : Bool := p.run == [p.ending ||| enableMask c] && !enableSet c p.ending

/-- The samples of a trace (R62). A corrupt pulse yields none, as a cut one does (92 D33). -/
def samples (c : Config) (t : List Event) : List Sample := ((pulses c t).filter (cleanPulse c)).map (sampleOf c)

/-- The bytes that samples give when they start at a high nibble, each with its register select (R64). -/
def byteView : List Sample → List (Bool × Byte)
  | h :: l :: rest => (h.rs, joinNibbles h.nib l.nib) :: byteView rest
  | _ => []

/-- Read a trace as the pairs of R118 (b): `none` when it is not made of them, else the byte `x` that must still be
written to complete the last pair, if there is one. An `X` may end a pair early; with `BL_IMMEDIATE` a single write with
EN clear may stand between pairs. -/
def pairing (c : Config) : Option Byte → List Event → Option (Option Byte)
  | p, [] => some p
  | p, .D _ :: es => pairing c p es
  | none, .W b :: es =>
    if enableSet c b then pairing c (some (b &&& ~~~(enableMask c))) es
    else if c.blImmediate then pairing c none es
    else none
  | none, .X b :: es => if enableSet c b || c.blImmediate then pairing c none es else none
  | some x, .W b :: es => if b = x then pairing c none es else none
  | some x, .X b :: es => if b = x then pairing c none es else none

/-! ## Time -/

/-- The minimum duration of a trace in nanoseconds: the sum of its `D` events (R8, R240). -/
def minDuration : List Event → Nat
  | [] => 0
  | .W _ :: es => minDuration es
  | .X _ :: es => minDuration es
  | .D t :: es => t + minDuration es

/-- The trace with adjacent delays added (R8). -/
def mergeDelays : List Event → List Event
  | [] => []
  | .W b :: es => .W b :: mergeDelays es
  | .X b :: es => .X b :: mergeDelays es
  | .D t :: es =>
    match mergeDelays es with
    | .D u :: rest => .D (t + u) :: rest
    | rest => .D t :: rest

end Sys2Proof.Machine
end

