-- ==== Sys2Proof/Machine/Abandon.lean ====
section
/-! DEFINITION. Reset while an operation is running (R222, R242; log 14). -/

namespace Sys2Proof.Machine

/-- The events of the operation that took `s` to `t`. -/
def eventsBetween (s t : State) : List Event := t.env.trace.drop s.env.trace.length

/-- Where the operation that takes `s` to `t` stands when `n` of its events are complete, in what a reset does not
overwrite: those events have happened and their writes are answered, and nothing after them has happened. -/
def stoppedAfter (n : Nat) (s t : State) : State :=
  { s with env := { s.env with
      answers := s.env.answers.drop (writeCount ((eventsBetween s t).take n))
      trace := s.env.trace ++ (eventsBetween s t).take n } }

/-- Execute `i`, and assert reset when `n` of its events are complete: the operation is abandoned there, with no further
event and no status (R222). An operation that has ended, or waits for the transport, before that takes the reset there. -/
def execThenReset (i : Instr) (n : Nat) (s : State) : Host.Outcome State Fault Refusal :=
  match exec i s with
  | .next t => .next (assertReset (if n ≤ (eventsBetween s t).length then stoppedAfter n s t else t))
  | .fault f => .fault f
  | .refused r => .refused r

end Sys2Proof.Machine
end

