-- ==== Sys2Proof/Machine/Fetch.lean ====
section
/-! DEFINITION. What the adapter takes next from its host port (R84, R100, R209, R242; log 16, 17). There is no program
counter and no instruction memory (R22, R67): the host presents one word at a time. -/

namespace Sys2Proof.Machine

/-- The host port is busy: a write of the operation in progress is not answered (R209). -/
def busy (s : State) : Bool := s.adapter.outstanding.isSome

/-- The host's next request has been taken. -/
def dropRequest (s : State) : State := { s with env := { s.env with requests := s.env.requests.tail } }

/-- The host's next reset has been taken; a word that waits before it still waits (log 16). -/
def dropReset (s : State) : State := { s with env := { s.env with requests := s.env.requests.erase .reset } }

/-- What happens next at the host port. -/
inductive Fetched
  /-- Nothing: the host has nothing to present, or presents a word while the port is busy and must wait. -/
  | nothing
  /-- Reset is asserted. -/
  | reset
  /-- An illegal word (R88). -/
  | illegal
  /-- A word that is an instruction. -/
  | run (i : Instr)
  /-- An illegal word, and reset after it. -/
  | illegalThenReset
  /-- A word that is an instruction, and reset when `n` events of it are complete. -/
  | runThenReset (i : Instr) (n : Nat)
deriving DecidableEq, Repr

/-- Look at the host's requests. A word is taken only when the port is ready (R69, R227, D31); while it is busy, only a
reset is, and that even if a word waits before it (R209, R222, R242; log 16). -/
def fetch (s : State) : Fetched :=
  if busy s then
    if .reset ∈ s.env.requests then .reset else .nothing
  else
    match s.env.requests with
    | [] => .nothing
    | .reset :: _ => .reset
    | .word w :: _ =>
      match decode (.host w) with
      | .ok i => .run i
      | .error _ => .illegal
    | .wordThenReset w n :: _ =>
      match decode (.host w) with
      | .ok i => .runThenReset i n
      | .error _ => .illegalThenReset

/-- The host word that carries a table word: a host word as it is; an LCD instruction byte as the operand of CMD, the
only way the host can hand one to the adapter (R89, R242; log 18). -/
def tableHostWord (nbits w : Nat) : HostWord :=
  if nbits = 8 then byteWord 0x1 (BitVec.ofNat 8 w) else BitVec.ofNat 80 w

/-- The host presents `w` next, at a port that is ready. -/
def presentWord (w : HostWord) (s : State) : State :=
  { s with
    adapter := { s.adapter with outstanding := none }
    env := { s.env with requests := .word w :: s.env.requests } }

/-- WRSTR at the host port (R102): one WRCHAR word per byte, in order; the empty string is no word at all. -/
def wrstrRequests (bytes : List Byte) : List Request := bytes.map fun b => .word (byteWord 0x6 b)

/-- The status of WRSTR (R102): that of its first word that is not OK, or OK. -/
def wrstrStatus : List Status → Status
  | [] => .ok
  | .ok :: sts => wrstrStatus sts
  | .transportError :: _ => .transportError
  | .notInitializedError :: _ => .notInitializedError
  | .invalidArgument :: _ => .invalidArgument

end Sys2Proof.Machine
end

