-- ==== Sys2Proof/Machine/Step.lean ====
section
/-! DEFINITION. One step: the adapter takes the host's next request and answers it whole (R8, 92 D1), or abandons it
at the reset that falls into it (R222). -/

namespace Sys2Proof.Machine

/-- One step. With nothing to take, the adapter is idle or waits for the transport, and nothing changes (R209, R221). -/
def step (s : State) : Host.Outcome State Fault Refusal :=
  if configWf s.cfg then
    match fetch s with
    | .nothing => .next s
    | .reset => .next (assertReset (dropReset s))
    | .illegal => .next (illegalWord (dropRequest s))
    | .run i => exec i (dropRequest s)
    | .illegalThenReset => .next (assertReset (illegalWord (dropRequest s)))
    | .runThenReset i n => execThenReset i n (dropRequest s)
  else .fault .illFormedConfig

/-- The host presents the table word next (log 17). -/
def State.withFetchWord (s : State) (nbits w : Nat) : State := presentWord (tableHostWord nbits w) s

end Sys2Proof.Machine
end

