-- ==== Sys2Proof/Machine/Assembly.lean ====
section
/-! DEFINITION. The assembly syntax of R101, one line per host word, with WRSTR (R102). It is no part of the machine: it
only names its words. What R101 leaves open of the text is log 31. -/

namespace Sys2Proof.Machine

/-! ## From a line to its parts -/

/-- A part of a line. -/
inductive Token
  /-- A mnemonic or a number. -/
  | word (cs : List Char)
  /-- A character in single quotes. -/
  | char (c : Char)
  /-- A text in double quotes (R102). -/
  | text (cs : List Char)
  | comma
deriving DecidableEq, Repr

/-- What has been read of a part. -/
inductive Reading
  | between
  | inWord (cs : List Char)
  | inQuote
  | quoted (c : Char)
  | inText (cs : List Char)
  | escaped (cs : List Char)
deriving DecidableEq, Repr

def singleQuote : Char := Char.ofNat 39

def doubleQuote : Char := Char.ofNat 34

def backslash : Char := Char.ofNat 92

/-- The character a backslash and `n` stand for in a text: 0x0A, as the WRSTR vector of spec/95_test_vectors.md has it. -/
def newline : Char := Char.ofNat 10

/-- A blank between parts. -/
def isBlank (c : Char) : Bool := c.toNat == 32 || c.toNat == 9

/-- The parts of a line; `;` starts a comment (R101). -/
def tokens : Reading → List Char → Option (List Token)
  | .between, [] => some []
  | .inWord w, [] => some [.word w]
  | .inQuote, [] => none
  | .quoted _, [] => none
  | .inText _, [] => none
  | .escaped _, [] => none
  | .between, c :: cs =>
    if c = ';' then some []
    else if c = ',' then (tokens .between cs).map (.comma :: ·)
    else if c = singleQuote then tokens .inQuote cs
    else if c = doubleQuote then tokens (.inText []) cs
    else if isBlank c then tokens .between cs
    else tokens (.inWord [c]) cs
  | .inWord w, c :: cs =>
    if c = ';' then some [.word w]
    else if c = ',' then (tokens .between cs).map fun ts => .word w :: .comma :: ts
    else if c = singleQuote then none
    else if c = doubleQuote then none
    else if isBlank c then (tokens .between cs).map (.word w :: ·)
    else tokens (.inWord (w ++ [c])) cs
  | .inQuote, c :: cs => tokens (.quoted c) cs
  | .quoted q, c :: cs => if c = singleQuote then (tokens .between cs).map (.char q :: ·) else none
  | .inText t, c :: cs =>
    if c = doubleQuote then (tokens .between cs).map (.text t :: ·)
    else if c = backslash then tokens (.escaped t) cs
    else tokens (.inText (t ++ [c])) cs
  | .escaped t, c :: cs => if c = 'n' then tokens (.inText (t ++ [newline])) cs else none

/-! ## Operands -/

/-- The value of a digit. -/
def digitValue (c : Char) : Option Nat :=
  let n := c.toNat
  if 48 ≤ n ∧ n ≤ 57 then some (n - 48)
  else if 65 ≤ n ∧ n ≤ 70 then some (n - 55)
  else if 97 ≤ n ∧ n ≤ 102 then some (n - 87)
  else none

/-- The value of the digits after `acc`. -/
def digitsValue (base acc : Nat) : List Char → Option Nat
  | [] => some acc
  | c :: cs =>
    match digitValue c with
    | some d => if d < base then digitsValue base (acc * base + d) cs else none
    | none => none

/-- A number in decimal or `0x` hexadecimal (R101). -/
def numberValue : List Char → Option Nat
  | [] => none
  | '0' :: 'x' :: [] => none
  | '0' :: 'x' :: c :: cs => digitsValue 16 0 (c :: cs)
  | c :: cs => digitsValue 10 0 (c :: cs)

/-- The ASCII code of a character (R101). -/
def asciiValue (c : Char) : Option Nat := if c.toNat < 128 then some c.toNat else none

/-- The value of an operand. -/
def operandValue : Token → Option Nat
  | .word cs => numberValue cs
  | .char c => asciiValue c
  | .text _ => none
  | .comma => none

/-- The operands of a line, separated by commas; the flag says that one must follow. -/
def operandValues : Bool → List Token → Option (List Nat)
  | true, [] => none
  | false, [] => some []
  | true, t :: ts =>
    match operandValue t with
    | some n => (operandValues false ts).map (n :: ·)
    | none => none
  | false, .comma :: ts => operandValues true ts
  | false, .word _ :: _ => none
  | false, .char _ :: _ => none
  | false, .text _ :: _ => none

/-! ## Mnemonics -/

/-- A byte operand. -/
def byteArg (n : Nat) : Option Byte := if n < 256 then some (BitVec.ofNat 8 n) else none

/-- A 4-bit operand. -/
def nibbleArg (n : Nat) : Option (BitVec 4) := if n < 16 then some (BitVec.ofNat 4 n) else none

/-- A boolean operand, 0 or 1. -/
def boolArg (n : Nat) : Option Bool := if n = 0 then some false else if n = 1 then some true else none

/-- Byte operands. -/
def byteArgs : List Nat → Option (List Byte)
  | [] => some []
  | n :: ns =>
    match byteArg n, byteArgs ns with
    | some b, some bs => some (b :: bs)
    | some _, none => none
    | none, _ => none

/-- The instructions a mnemonic and its operands stand for, in D0's argument order (R101); WRSTR is one WRCHAR per byte
(R102). -/
def assemble (mnemonic : String) (ops : List Nat) : Option (List Instr) :=
  match mnemonic, ops with
  | "INIT", [] => some [.init]
  | "CMD", [c] => (byteArg c).map fun b => [.cmd b]
  | "DATA", [v] => (byteArg v).map fun b => [.data b]
  | "CLEAR", [] => some [.clear]
  | "HOME", [] => some [.home]
  | "SETCUR", [column, row] =>
    match byteArg column, nibbleArg row with
    | some c, some r => some [.setcur r c]
    | some _, none => none
    | none, _ => none
  | "WRCHAR", [ch] => (byteArg ch).map fun b => [.wrchar b]
  | "WRSTR", bytes => (byteArgs bytes).map fun bs => bs.map .wrchar
  | "DISPVIS", [v] => (boolArg v).map fun b => [.dispvis b]
  | "CURVIS", [v] => (boolArg v).map fun b => [.curvis b]
  | "CURBLINK", [v] => (boolArg v).map fun b => [.curblink b]
  | "BACKLIGHT", [v] => (boolArg v).map fun b => [.backlight b]
  | "GLYPH", [index, r0, r1, r2, r3, r4, r5, r6, r7] =>
    match nibbleArg index, byteArgs [r0, r1, r2, r3, r4, r5, r6, r7] with
    | some i, some rows => some [.glyph i rows]
    | some _, none => none
    | none, _ => none
  | _, _ => none

/-- The mnemonic and operands of a host operation; the other rows have no assembly form. -/
def assembly : Instr → Option (String × List Nat)
  | .init => some ("INIT", [])
  | .cmd c => some ("CMD", [c.toNat])
  | .data v => some ("DATA", [v.toNat])
  | .clear => some ("CLEAR", [])
  | .home => some ("HOME", [])
  | .setcur row column => some ("SETCUR", [column.toNat, row.toNat])
  | .wrchar b => some ("WRCHAR", [b.toNat])
  | .dispvis v => some ("DISPVIS", [v.toNat])
  | .curvis v => some ("CURVIS", [v.toNat])
  | .curblink v => some ("CURBLINK", [v.toNat])
  | .backlight on => some ("BACKLIGHT", [on.toNat])
  | .glyph index rows => some ("GLYPH", index.toNat :: rows.map BitVec.toNat)
  | .reservedC _ => none
  | .reservedD _ => none
  | .reservedE _ => none
  | .reservedF _ => none
  | .lcdClear => none
  | .lcdHome _ => none
  | .lcdEntrymode _ _ => none
  | .lcdDispctl _ _ _ => none
  | .lcdShift _ _ _ => none
  | .lcdFuncset _ _ _ _ => none
  | .lcdSetcgram _ => none
  | .lcdSetddram _ => none
  | .lcdNone => none
  | .portbyte _ _ _ _ => none

/-- The ASCII codes of a text. -/
def asciiValues : List Char → Option (List Nat)
  | [] => some []
  | c :: cs =>
    match asciiValue c, asciiValues cs with
    | some n, some ns => some (n :: ns)
    | some _, none => none
    | none, _ => none

/-- The operands after a mnemonic: none, a text, or operands separated by commas. -/
def lineOperands : List Token → Option (List Nat)
  | [] => some []
  | [.text cs] => asciiValues cs
  | ts => operandValues true ts

/-- The instructions of one line of R101; a blank line or a comment has none. A text is an operand of WRSTR only. -/
def assembleLine (line : String) : Option (List Instr) :=
  match tokens .between line.toList with
  | none => none
  | some [] => some []
  | some (.word m :: ts) =>
    let name := String.ofList m
    if ts.any (fun t => match t with | .text _ => true | .word _ => false | .char _ => false | .comma => false)
        && name != "WRSTR" then none
    else (lineOperands ts).bind (assemble name)
  | some (.char _ :: _) => none
  | some (.text _ :: _) => none
  | some (.comma :: _) => none

end Sys2Proof.Machine
end

