-- ==== Sys2Proof/Safety.lean ====
section
/-! DEFINITION. What counts as a safe run, in the terms claims use: the launch premises of R243, a clean run (R241),
what an operation that returns a status leaves, and the invariant of R118. -/

namespace Sys2Proof.Machine

/-! ## Launch premises (R243) -/

/-- `TransportSucceeds` for the next `n` writes: each is answered with success. -/
def TransportSucceeds (n : Nat) (s : State) : Prop := s.env.answers.take n = List.replicate n .success

/-- `TransportAnswers` for the next `n` writes: each is answered. -/
def TransportAnswers (n : Nat) (s : State) : Prop := n ≤ s.env.answers.length ∧ Answer.silence ∉ s.env.answers.take n

/-- `FreshReset`: the state is as R221 says, the trace empty. -/
def FreshReset (s : State) : Prop :=
  s.adapter.mode = .uninitialized ∧ s.adapter.ds.bl = false ∧ s.adapter.seq = 0 ∧ s.adapter.delay = 0
    ∧ s.adapter.outstanding = none ∧ s.env.trace = [] ∧ s.env.statuses = []

/-- A run so far is clean: every status is OK (R241). -/
def CleanRun (s : State) : Prop := ∀ st ∈ s.env.statuses, st = .ok

/-! ## What an operation leaves -/

/-- The operation that took `s` to `t` returned `st`, and nothing else changed: no event, no register, not `PORT`. -/
def RefusedWith (st : Status) (s t : State) : Prop :=
  t = { s with env := { s.env with statuses := s.env.statuses ++ [st] } }

/-- The operation that took `s` to `t` returned OK: its events are `evs`, it left `MODE` and `DS` as given, the
transport answered its writes, `PORT` holds its last payload, `SEQ` has counted its events, and everything else is as
before but the working registers CURB, RSSEL and NIB and the delay timer, which is at rest if it was. -/
def Completes (evs : List Event) (mode : Mode) (ds : DisplayState) (s t : State) : Prop :=
  t.cfg = s.cfg ∧ t.adapter.mode = mode ∧ t.adapter.ds = ds ∧ t.adapter.seq = evs.length
    ∧ (s.adapter.delay = 0 → t.adapter.delay = 0) ∧ t.adapter.outstanding = s.adapter.outstanding
    ∧ t.port = portAfter s.port evs
    ∧ t.env = { s.env with
        answers := s.env.answers.drop (writeCount evs)
        trace := s.env.trace ++ evs
        statuses := s.env.statuses ++ [.ok] }

/-- Write number `k` of the events `evs` fails: the transport answers `k` writes with success and the next with
failure. -/
def FailsAt (k : Nat) (evs : List Event) (s : State) : Prop :=
  k < writeCount evs ∧ TransportSucceeds k s ∧ s.env.answers[k]? = some .failure

/-- Write number `k` of the events `evs` is never answered (R209): the transport answers `k` writes with success and
then withholds the answer, or answers nothing more (log 2). -/
def SilentAt (k : Nat) (evs : List Event) (s : State) : Prop :=
  k < writeCount evs ∧ TransportSucceeds k s ∧ (s.env.answers[k]? = some .silence ∨ s.env.answers[k]? = none)

/-- Write number `k` of `evs` failed and TransportError was raised (R110, R196): `MODE` is Faulted, `DS` is as given,
`PORT` is a free value, `SEQ` says where the list was cut, and everything else is as before but the working registers
and the delay timer. -/
def Faults (k : Nat) (evs : List Event) (ds : DisplayState) (s t : State) : Prop :=
  t.cfg = s.cfg ∧ t.adapter.mode = .faulted ∧ t.adapter.ds = ds ∧ t.adapter.seq = (beforeWrite k evs).length
    ∧ (s.adapter.delay = 0 → t.adapter.delay = 0) ∧ t.adapter.outstanding = s.adapter.outstanding
    ∧ t.port = Config.portAfterFailure s.env.draws
    ∧ t.env = { s.env with
        answers := s.env.answers.drop (k + 1)
        draws := s.env.draws + 1
        trace := s.env.trace ++ cutAtWrite k evs
        statuses := s.env.statuses ++ [.transportError] }

/-- Write number `k` of `evs` is not answered (R209): it is outstanding, no status is returned, `MODE` is kept, `DS` is
as given, and the events before it have happened. -/
def Hangs (k : Nat) (evs : List Event) (ds : DisplayState) (s t : State) : Prop :=
  t.cfg = s.cfg ∧ t.adapter.mode = s.adapter.mode ∧ t.adapter.ds = ds
    ∧ t.adapter.seq = (beforeWrite k evs).length
    ∧ (s.adapter.delay = 0 → t.adapter.delay = 0) ∧ t.adapter.outstanding = (payloads evs)[k]?
    ∧ t.port = portAfter s.port (beforeWrite k evs)
    ∧ t.env = { s.env with
        answers := s.env.answers.drop (k + 1)
        trace := s.env.trace ++ beforeWrite k evs }

/-- An instruction that `RequireReady()` guards (R140): every one but INIT and the codes that are no operation of the
host. -/
def needsReady : Instr → Bool
  | .init => false
  | .cmd _ => true
  | .data _ => true
  | .clear => true
  | .home => true
  | .setcur _ _ => true
  | .wrchar _ => true
  | .dispvis _ => true
  | .curvis _ => true
  | .curblink _ => true
  | .backlight _ => true
  | .glyph _ _ => true
  | .reservedC _ => false
  | .reservedD _ => false
  | .reservedE _ => false
  | .reservedF _ => false
  | .lcdClear => true
  | .lcdHome _ => true
  | .lcdEntrymode _ _ => true
  | .lcdDispctl _ _ _ => true
  | .lcdShift _ _ _ => true
  | .lcdFuncset _ _ _ _ => true
  | .lcdSetcgram _ => true
  | .lcdSetddram _ => true
  | .lcdNone => true
  | .portbyte _ _ _ _ => false

/-- An instruction's operands are in the ranges its rule checks (R163, R170, R193). -/
def argumentsOk (c : Config) (i : Instr) : Bool :=
  match i with
  | .setcur row column => decide (row.toNat < c.rows) && decide (column.toNat < c.cols)
  | .glyph index _ => decide (index.toNat ≤ 7)
  | _ => true

/-- A reserved host code (R88). -/
def isReserved : Instr → Bool
  | .reservedC _ => true
  | .reservedD _ => true
  | .reservedE _ => true
  | .reservedF _ => true
  | _ => false

/-- The checks of R195 before transmission all pass: the instruction executes. -/
def Executes (i : Instr) (s : State) : Prop :=
  isReserved i = false ∧ (needsReady i = true → s.adapter.mode = .ready) ∧ argumentsOk s.cfg i = true

/-- `DS` while the instruction transmits: only setBacklight has changed it before (R169, R196). -/
def dsDuring (i : Instr) (d : DisplayState) : DisplayState :=
  match i with
  | .backlight on => dsWithBl on d
  | _ => d

/-! ## Host words, from the table of R85 -/

/-- The bits that must be zero in a host word of each code (R85; the table's `(mbz)` fields). -/
def mustBeZero (op : BitVec 4) : HostWord :=
  match op.toNat with
  | 0x0 => 0x0FFFFFFFFFFFFFFFFFFF
  | 0x1 => 0x0F00FFFFFFFFFFFFFFFF
  | 0x2 => 0x0F00FFFFFFFFFFFFFFFF
  | 0x3 => 0x0FFFFFFFFFFFFFFFFFFF
  | 0x4 => 0x0FFFFFFFFFFFFFFFFFFF
  | 0x5 => 0x0000FFFFFFFFFFFFFFFF
  | 0x6 => 0x0F00FFFFFFFFFFFFFFFF
  | 0x7 => 0x0FFEFFFFFFFFFFFFFFFF
  | 0x8 => 0x0FFEFFFFFFFFFFFFFFFF
  | 0x9 => 0x0FFEFFFFFFFFFFFFFFFF
  | 0xA => 0x0FFEFFFFFFFFFFFFFFFF
  | 0xB => 0x00FF0000000000000000
  | _ => 0

/-- An illegal host word (R88): `op` is 0xC to 0xF, or a field its row requires to be zero is not zero. -/
def IllegalWord (w : HostWord) : Prop :=
  0xC ≤ (w.extractLsb' 76 4).toNat ∨ w &&& mustBeZero (w.extractLsb' 76 4) ≠ 0

/-! ## The invariant -/

/-- Every write of the trace has the RW bit clear (R83, R118 (a)). -/
def RwClear (s : State) : Prop := ∀ b ∈ payloads s.env.trace, b &&& roleMask s.cfg .rw = 0

/-- The writes of the trace are the pairs of R118 (b); a pair is open only while its second write is not answered. -/
def Paired (s : State) : Prop :=
  pairing s.cfg none s.env.trace = some none
    ∨ ∃ x, pairing s.cfg none s.env.trace = some (some x) ∧ s.adapter.outstanding = some x

/-- In mode Ready with the host port ready the Enable line rests low (R118 (c)). -/
def EnableRests (s : State) : Prop :=
  s.adapter.mode = .ready → s.adapter.outstanding = none → s.port &&& enableMask s.cfg = 0

/-- Every pulse of the trace is clean (R63, R118 (e)). -/
def PulsesClean (s : State) : Prop := ∀ p ∈ pulses s.cfg s.env.trace, cleanPulse s.cfg p = true

/-- In mode Ready the entry-mode flags are the defaults: increment, no auto-scroll (R25, R26). -/
def EntryModeFixed (s : State) : Prop := s.adapter.mode = .ready → s.adapter.ds.inc = true ∧ s.adapter.ds.shift = false

end Sys2Proof.Machine
end

