-- ==== Sys2Proof/Certificates/Slice0/Obligations.lean ====
section
/-! DEFINITION. The statements for the provers. Each docstring names the rule of spec/ it formalises. -/

open Sys2Proof Sys2Proof.Machine

/-! ## Encodings -/

/-- R84, R85, R86, R89, R81: no operand bit is lost in an encoding. -/
def Obligations.DecodeOfEncodeIsInstr : Prop := ∀ i : Instr, i.wf = true → decode (encode i) = .ok i

/-- R100, R88, R89, R81: each code has at most one reading, and it is a well-formed instruction. -/
def Obligations.EncodeOfDecodeIsCode : Prop :=
  ∀ (c : Code) (i : Instr), decode c = .ok i → i.wf = true ∧ encode i = c

/-- V20 and the patterns of R90 to R98 and R81, written out bit by bit. -/
def Obligations.SpecWordsDecode : Prop :=
  decode (.host 0x00000000000000000000) = .ok .init
    ∧ decode (.host 0x10380000000000000000) = .ok (.cmd 0x38)
    ∧ decode (.host 0x51070000000000000000) = .ok (.setcur 1 7)
    ∧ decode (.host 0x70010000000000000000) = .ok (.dispvis true)
    ∧ decode (.host 0xB30008090A0B0C0D0E0F) = .ok (.glyph 3 [0x0F, 0x0E, 0x0D, 0x0C, 0x0B, 0x0A, 0x09, 0x08])
    ∧ decode (.host 0xC0000000000000000000) = .ok (.reservedC 0)
    ∧ decode (.host 0x20410000000000000100) = .error .payload
    ∧ decode (.lcd 0b00001101) = .ok (.lcdDispctl true false true)
    ∧ decode (.lcd 0b11000111) = .ok (.lcdSetddram 0x47)
    ∧ decode (.port 0b01000101) = .ok (.portbyte 0x4 false true true)

/-- R100: a word matches a row of R85 or is illegal by R88, never both. -/
def Obligations.WordIsLegalOrIllegal : Prop :=
  ∀ w : HostWord,
    (¬ IllegalWord w → ∃ i, decode (.host w) = .ok i ∧ i.wf = true ∧ isReserved i = false)
      ∧ (IllegalWord w → (∃ e, decode (.host w) = .error e) ∨ ∃ i, decode (.host w) = .ok i ∧ isReserved i = true)

/-- R88: an illegal host word is refused with InvalidArgument in every mode, with no event and no state change. -/
def Obligations.IllegalWordRefused : Prop :=
  ∀ (s : State) (w : HostWord) (rest : List Request),
    configWf s.cfg = true → s.adapter.outstanding = none → s.env.requests = .word w :: rest → IllegalWord w →
    ∃ t, step s = .next t
      ∧ RefusedWith .invalidArgument { s with env := { s.env with requests := rest } } t

/-- R101: assembling the mnemonic and operands of a host operation gives that one operation. -/
def Obligations.AssemblyNamesItsInstruction : Prop :=
  ∀ (i : Instr) (mnemonic : String) (ops : List Nat), i.wf = true → assembly i = some (mnemonic, ops) →
    assemble mnemonic ops = some [i]

/-! ## The step -/

/-- A word at the head of the host's requests, at a port that is ready, is decoded and the instruction executed; the
step takes the word from the requests and does nothing else around `exec`. -/
def Obligations.StepRunsDecodedInstruction : Prop :=
  ∀ (s : State) (w : HostWord) (rest : List Request) (i : Instr),
    configWf s.cfg = true → s.adapter.outstanding = none → s.env.requests = .word w :: rest →
    decode (.host w) = .ok i →
    step s = exec i { s with env := { s.env with requests := rest } }

/-- R221: an adapter to which nothing is presented waits, and nothing changes. That it also waits, and a presented word
with it, while a write is not answered and no reset is asserted is the model's choice (log 16, log 26): R209 gives the
hang, and 93 U17 gives a word presented meanwhile no move. -/
def Obligations.StepWaitsWithoutAcceptedRequest : Prop :=
  ∀ s : State, configWf s.cfg = true →
    (s.env.requests = [] ∨ ∃ b, s.adapter.outstanding = some b ∧ .reset ∉ s.env.requests) →
    step s = .next s

/-- The model's choice for 93 U16 (log 13): a configuration that is not well-formed stops the step. -/
def Obligations.IllFormedConfigStops : Prop :=
  ∀ s : State, configWf s.cfg = false → step s = .fault .illFormedConfig

/-- R37, R221: the values the spec gives for reset. -/
def Obligations.ResetStateValues : Prop :=
  FreshReset State.reset ∧ configWf State.reset.cfg = true ∧ State.reset.env.requests = []

/-- R220, R222, R223, R242: reset is taken in every state, a busy one included; it returns no status, leaves the values
of R221 and does not reach the configuration. A word that waits at a busy port does not hold up a reset behind it; that
the word still waits afterwards is the model's choice (log 16). -/
def Obligations.ResetTakenInEveryState : Prop :=
  (∀ (s : State) (rest : List Request), configWf s.cfg = true → s.env.requests = .reset :: rest →
    ∃ t, step s = .next t ∧ FreshReset t ∧ t.cfg = s.cfg ∧ t.env.requests = rest ∧ t.env.answers = s.env.answers)
  ∧ ∀ (s : State) (b : Byte), configWf s.cfg = true → s.adapter.outstanding = some b → .reset ∈ s.env.requests →
    ∃ t, step s = .next t ∧ FreshReset t ∧ t.cfg = s.cfg ∧ t.env.requests = s.env.requests.erase .reset
      ∧ t.env.answers = s.env.answers

/-- R222, R242: reset asserted when `n` events of an operation are complete, whatever `n`, abandons the operation: no
status, no further event, the values of R221, and of the transport's answers only those to the writes among the `n`
events are used. -/
def Obligations.ResetAbandonsOperation : Prop :=
  ∀ (s : State) (w : HostWord) (n : Nat) (rest : List Request), configWf s.cfg = true →
    s.adapter.outstanding = none → s.env.requests = .wordThenReset w n :: rest →
    ∃ t, step s = .next t ∧ FreshReset t ∧ t.cfg = s.cfg ∧ t.env.requests = rest
      ∧ ∀ i, decode (.host w) = .ok i → Executes i s → n ≤ (expansion i s).length →
          TransportSucceeds (writeCount ((expansion i s).take n)) s →
          t.env.answers = s.env.answers.drop (writeCount ((expansion i s).take n))

/-! ## Completion of each instruction, with its frame -/

/-- R141: initialize completes from every mode. -/
def Obligations.InitCompletes : Prop :=
  ∀ s : State, TransportSucceeds (writeCount (initEvents s.cfg s.adapter.ds.bl)) s →
    ∃ t, exec .init s = .next t
      ∧ Completes (initEvents s.cfg s.adapter.ds.bl) .ready
          { s.adapter.ds with disp := true, cur := false, blink := false, inc := true, shift := false } s t

/-- R141: the event list of initialize with the default LCD constants. -/
def Obligations.InitEventsAreTheHandshake : Prop :=
  ∀ (c : Config) (bl : Bool), c.lcdi = defaultLcdi →
    initEvents c bl =
      idle c.times.powerup
        ++ pulseEvents c (nibbleByte c bl 0x3 false) ++ idle c.times.init1
        ++ pulseEvents c (nibbleByte c bl 0x3 false) ++ idle c.times.init2
        ++ pulseEvents c (nibbleByte c bl 0x3 false) ++ idle c.times.init2
        ++ pulseEvents c (nibbleByte c bl 0x2 false) ++ idle c.times.init2
        ++ byteEvents c bl (0x20 ||| (if 1 < c.rows then 0x08 else 0) ||| (if c.font then 0x04 else 0)) false
        ++ idle c.times.cmd
        ++ byteEvents c bl 0x0C false ++ idle c.times.cmd
        ++ byteEvents c bl 0x01 false ++ idle c.times.long
        ++ byteEvents c bl 0x06 false ++ idle c.times.cmd

/-- R142: sendCommand completes in Ready for every byte; LONG delay for 0x01, 0x02 and 0x03 (R98). The clauses on CURB,
RSSEL and NIB after the operation are the model's choice (log 6): R21 gives them no value between operations. -/
def Obligations.CmdCompletes : Prop :=
  ∀ (s : State) (cmd : Byte), s.adapter.mode = .ready →
    TransportSucceeds 4 s →
    ∃ t, exec (.cmd cmd) s = .next t
      ∧ Completes
          (byteEvents s.cfg s.adapter.ds.bl cmd false
            ++ idle (if cmd = 0x01 ∨ cmd = 0x02 ∨ cmd = 0x03 then s.cfg.times.long else s.cfg.times.cmd))
          .ready s.adapter.ds s t
      ∧ t.adapter.curb = cmd ∧ t.adapter.rssel = false
      ∧ t.adapter.nib = nibbleByte s.cfg s.adapter.ds.bl (lowNibble cmd) false
      ∧ t.port = nibbleByte s.cfg s.adapter.ds.bl (lowNibble cmd) false

/-- R143: sendData completes in Ready for every byte. The clauses on CURB, RSSEL and NIB after the operation are the
model's choice (log 6): R21 gives them no value between operations. -/
def Obligations.DataCompletes : Prop :=
  ∀ (s : State) (value : Byte), s.adapter.mode = .ready →
    TransportSucceeds 4 s →
    ∃ t, exec (.data value) s = .next t
      ∧ Completes (byteEvents s.cfg s.adapter.ds.bl value true ++ idle s.cfg.times.data) .ready s.adapter.ds s t
      ∧ t.adapter.curb = value ∧ t.adapter.rssel = true
      ∧ t.adapter.nib = nibbleByte s.cfg s.adapter.ds.bl (lowNibble value) true
      ∧ t.port = nibbleByte s.cfg s.adapter.ds.bl (lowNibble value) true

/-- R161, R162: clear and home complete in Ready; with the default LCD constants their bytes are 0x01 and 0x02 and
their delay is the long one. -/
def Obligations.ClearAndHomeComplete : Prop :=
  ∀ s : State, s.adapter.mode = .ready → TransportSucceeds 4 s →
    (∃ t, exec .clear s = .next t
      ∧ Completes (commandEvents s.cfg s.adapter.ds.bl s.cfg.lcdi.clear) .ready s.adapter.ds s t
      ∧ (s.cfg.lcdi = defaultLcdi →
          t.env.trace = s.env.trace ++ byteEvents s.cfg s.adapter.ds.bl 0x01 false ++ idle s.cfg.times.long))
    ∧ (∃ t, exec .home s = .next t
      ∧ Completes (commandEvents s.cfg s.adapter.ds.bl s.cfg.lcdi.home) .ready s.adapter.ds s t
      ∧ (s.cfg.lcdi = defaultLcdi →
          t.env.trace = s.env.trace ++ byteEvents s.cfg s.adapter.ds.bl 0x02 false ++ idle s.cfg.times.long))

/-- R163, R54: setCursor completes in Ready for every cell of the display; with the default LCD constants the byte is
`0x80 | (ROWBASE[row] + column)`. -/
def Obligations.SetcurCompletes : Prop :=
  ∀ (s : State) (row : BitVec 4) (column : Byte), s.adapter.mode = .ready →
    row.toNat < s.cfg.rows → column.toNat < s.cfg.cols → TransportSucceeds 4 s →
    ∃ t, exec (.setcur row column) s = .next t
      ∧ Completes
          (commandEvents s.cfg s.adapter.ds.bl (setDdram s.cfg (ddramAddress s.cfg row.toNat column.toNat)))
          .ready s.adapter.ds s t
      ∧ (configWf s.cfg = true → s.cfg.lcdi = defaultLcdi →
          ∃ cmd : Byte, cmd.toNat = 0x80 + ((rowBaseOf s.cfg row.toNat).toNat + column.toNat)
            ∧ t.env.trace = s.env.trace ++ byteEvents s.cfg s.adapter.ds.bl cmd false ++ idle s.cfg.times.cmd)

/-- R164, R102 (b): writeCharacter is `op` = 0x6 with `b` = byte; it is sendData in every state, and completes in Ready
for every byte. -/
def Obligations.WrcharCompletes : Prop :=
  ∀ (s : State) (byte : Byte),
    decode (.host (0x6#4 ++ 0#4 ++ byte ++ 0#64)) = .ok (.wrchar byte)
      ∧ exec (.wrchar byte) s = exec (.data byte) s
      ∧ (s.adapter.mode = .ready → TransportSucceeds 4 s →
          ∃ t, exec (.wrchar byte) s = .next t
            ∧ Completes (byteEvents s.cfg s.adapter.ds.bl byte true ++ idle s.cfg.times.data)
                .ready s.adapter.ds s t)

/-- R166, R167, R168: each flag operation completes in Ready, sends the display-control byte of the updated flags and
commits its flag; with the default LCD constants that byte is 00001DCB (R93), with the short delay. -/
def Obligations.FlagOperationsComplete : Prop :=
  ∀ (s : State) (v : Bool), s.adapter.mode = .ready → TransportSucceeds 4 s →
    let sent (t : State) (d cu bk : Bool) : Prop :=
      s.cfg.lcdi = defaultLcdi →
        t.env.trace = s.env.trace
          ++ byteEvents s.cfg s.adapter.ds.bl (0x08 ||| flagAt 2 d ||| flagAt 1 cu ||| flagAt 0 bk) false
          ++ idle s.cfg.times.cmd
    (∃ t, exec (.dispvis v) s = .next t
      ∧ Completes (commandEvents s.cfg s.adapter.ds.bl (dispCtl s.cfg v s.adapter.ds.cur s.adapter.ds.blink))
          .ready { s.adapter.ds with disp := v } s t
      ∧ sent t v s.adapter.ds.cur s.adapter.ds.blink)
    ∧ (∃ t, exec (.curvis v) s = .next t
      ∧ Completes (commandEvents s.cfg s.adapter.ds.bl (dispCtl s.cfg s.adapter.ds.disp v s.adapter.ds.blink))
          .ready { s.adapter.ds with cur := v } s t
      ∧ sent t s.adapter.ds.disp v s.adapter.ds.blink)
    ∧ (∃ t, exec (.curblink v) s = .next t
      ∧ Completes (commandEvents s.cfg s.adapter.ds.bl (dispCtl s.cfg s.adapter.ds.disp s.adapter.ds.cur v))
          .ready { s.adapter.ds with blink := v } s t
      ∧ sent t s.adapter.ds.disp s.adapter.ds.cur v)

/-- R169: setBacklight completes in Ready. Without `BL_IMMEDIATE` it makes no event and needs no transport; with it, it
makes exactly one write, with EN low and the new value. -/
def Obligations.BacklightCompletes : Prop :=
  ∀ (s : State) (on : Bool), s.adapter.mode = .ready →
    (s.cfg.blImmediate = false →
      exec (.backlight on) s = .next
        { s with
          adapter := { s.adapter with ds := { s.adapter.ds with bl := on }, seq := 0 }
          env := { s.env with statuses := s.env.statuses ++ [.ok] } })
    ∧ (s.cfg.blImmediate = true → TransportSucceeds 1 s →
      exec (.backlight on) s = .next
        { s with
          adapter := { s.adapter with ds := { s.adapter.ds with bl := on }, seq := 1 }
          port := portByte s.cfg 0 false on false
          env := { s.env with
            answers := s.env.answers.tail
            trace := s.env.trace ++ [.W (portByte s.cfg 0 false on false)]
            statuses := s.env.statuses ++ [.ok] } })

/-- R170: defineCustomGlyph completes in Ready for every index 0 to 7 and all rows. -/
def Obligations.GlyphCompletes : Prop :=
  ∀ (s : State) (index : BitVec 4) (rows : List Byte), s.adapter.mode = .ready → index.toNat ≤ 7 →
    TransportSucceeds (4 + 4 * rows.length) s →
    ∃ t, exec (.glyph index rows) s = .next t
      ∧ Completes
          (commandEvents s.cfg s.adapter.ds.bl (setCgram s.cfg index)
            ++ rows.flatMap fun r => byteEvents s.cfg s.adapter.ds.bl r true ++ idle s.cfg.times.data)
          .ready s.adapter.ds s t

/-- R88: the reserved codes return InvalidArgument in every mode and change nothing else. -/
def Obligations.ReservedCodesRefused : Prop :=
  ∀ (s : State) (rest : BitVec 76),
    (∃ t, exec (.reservedC rest) s = .next t ∧ RefusedWith .invalidArgument s t)
      ∧ (∃ t, exec (.reservedD rest) s = .next t ∧ RefusedWith .invalidArgument s t)
      ∧ (∃ t, exec (.reservedE rest) s = .next t ∧ RefusedWith .invalidArgument s t)
      ∧ (∃ t, exec (.reservedF rest) s = .next t ∧ RefusedWith .invalidArgument s t)

/-- R89 to R98, R142: the adapter sends each LCD instruction byte unchanged with RS = 0 and the delay of its class. The
choice of these rows' meaning is the model's (log 18). -/
def Obligations.LcdBytesComplete : Prop :=
  ∀ s : State, s.adapter.mode = .ready → TransportSucceeds 4 s →
    let sends (i : Instr) (b : Byte) (delay : Nat) : Prop :=
      ∃ t, exec i s = .next t
        ∧ Completes (byteEvents s.cfg s.adapter.ds.bl b false ++ idle delay) .ready s.adapter.ds s t
    sends .lcdClear 0x01 s.cfg.times.long
      ∧ (∀ x, sends (.lcdHome x) (0x02 ||| flagAt 0 x) s.cfg.times.long)
      ∧ (∀ inc shift, sends (.lcdEntrymode inc shift) (0x04 ||| flagAt 1 inc ||| flagAt 0 shift) s.cfg.times.cmd)
      ∧ (∀ d cu bk, sends (.lcdDispctl d cu bk) (0x08 ||| flagAt 2 d ||| flagAt 1 cu ||| flagAt 0 bk) s.cfg.times.cmd)
      ∧ (∀ sc rl x, sends (.lcdShift sc rl x) (0x10 ||| flagAt 3 sc ||| flagAt 2 rl ||| x.setWidth 8) s.cfg.times.cmd)
      ∧ (∀ dl n f x, sends (.lcdFuncset dl n f x)
          (0x20 ||| flagAt 4 dl ||| flagAt 3 n ||| flagAt 2 f ||| x.setWidth 8) s.cfg.times.cmd)
      ∧ (∀ a, sends (.lcdSetcgram a) (0x40 ||| a.setWidth 8) s.cfg.times.cmd)
      ∧ (∀ a, sends (.lcdSetddram a) (0x80 ||| a.setWidth 8) s.cfg.times.cmd)
      ∧ sends .lcdNone 0x00 s.cfg.times.cmd

/-- R52, R82: one transport write of a port byte, in every mode. The choice of this row's meaning is the model's
(log 19). -/
def Obligations.PortbyteCompletes : Prop :=
  ∀ (s : State) (nib : Nibble) (bl en rs : Bool), TransportSucceeds 1 s →
    exec (.portbyte nib bl en rs) s = .next
      { s with
        adapter := { s.adapter with seq := 1 }
        port := portByte s.cfg nib rs bl en
        env := { s.env with
          answers := s.env.answers.tail
          trace := s.env.trace ++ [.W (portByte s.cfg nib rs bl en)]
          statuses := s.env.statuses ++ [.ok] } }

/-- R165: writeString completes in Ready for every sequence, the empty one included. -/
def Obligations.WriteStringCompletes : Prop :=
  ∀ (s : State) (bytes : List Byte), s.adapter.mode = .ready → TransportSucceeds (4 * bytes.length) s →
    Completes (bytes.flatMap fun b => byteEvents s.cfg s.adapter.ds.bl b true ++ idle s.cfg.times.data)
      .ready s.adapter.ds s (writeString bytes s)

/-! ## Errors -/

/-- R23, R87, R194: the numbers of the statuses and of the modes, and there are no other statuses and modes. -/
def Obligations.StatusAndModeCodes : Prop :=
  (statusCode .ok = 0 ∧ statusCode .transportError = 1 ∧ statusCode .notInitializedError = 2
    ∧ statusCode .invalidArgument = 3)
  ∧ (modeCode .uninitialized = 0 ∧ modeCode .ready = 1 ∧ modeCode .faulted = 2)
  ∧ (∀ st : Status, st = .ok ∨ st = .transportError ∨ st = .notInitializedError ∨ st = .invalidArgument)
  ∧ ∀ m : Mode, m = .uninitialized ∨ m = .ready ∨ m = .faulted

/-- R192, R140, R165: NotInitializedError is status code 2; every operation but initialize, writeString of any sequence
included, returns it in Uninitialized and in Faulted, with no write and no other change; and only then is it returned.
That the LCD instruction bytes are among these operations is the model's choice (log 18), and so is that a port byte is
not (log 19). -/
def Obligations.NotReadyRefused : Prop :=
  statusCode .notInitializedError = 2
  ∧ (∀ (bytes : List Byte) (s : State),
    (s.adapter.mode ≠ .ready → RefusedWith .notInitializedError s (writeString bytes s))
    ∧ ((writeString bytes s).env.statuses = s.env.statuses ++ [.notInitializedError] → s.adapter.mode ≠ .ready))
  ∧ ∀ (i : Instr) (s : State),
    (needsReady i = true → s.adapter.mode ≠ .ready →
      ∃ t, exec i s = .next t ∧ RefusedWith .notInitializedError s t)
    ∧ ∀ t, exec i s = .next t → t.env.statuses = s.env.statuses ++ [.notInitializedError] →
        needsReady i = true ∧ s.adapter.mode ≠ .ready

/-- R163, R170, R193: an operand out of its range returns InvalidArgument and changes nothing. -/
def Obligations.InvalidArgumentRefused : Prop :=
  ∀ s : State, s.adapter.mode = .ready →
    (∀ (row : BitVec 4) (column : Byte), s.cfg.rows ≤ row.toNat ∨ s.cfg.cols ≤ column.toNat →
      ∃ t, exec (.setcur row column) s = .next t ∧ RefusedWith .invalidArgument s t)
    ∧ (∀ (index : BitVec 4) (rows : List Byte), 8 ≤ index.toNat →
      ∃ t, exec (.glyph index rows) s = .next t ∧ RefusedWith .invalidArgument s t)

/-- R195: the first error in the fixed order of checks is the one reported; an instruction whose checks pass reports OK,
TransportError, or nothing while it waits. -/
def Obligations.FirstErrorReported : Prop :=
  ∀ (i : Instr) (s t : State), exec i s = .next t →
    (isReserved i = true → RefusedWith .invalidArgument s t)
      ∧ (isReserved i = false → needsReady i = true → s.adapter.mode ≠ .ready → RefusedWith .notInitializedError s t)
      ∧ (isReserved i = false → (needsReady i = true → s.adapter.mode = .ready) → argumentsOk s.cfg i = false →
          RefusedWith .invalidArgument s t)
      ∧ (Executes i s → t.env.statuses = s.env.statuses
          ∨ t.env.statuses = s.env.statuses ++ [.ok] ∨ t.env.statuses = s.env.statuses ++ [.transportError])

/-- R52, R110, R117, R191, R196: whichever write of an instruction fails, its events are cut after that write, the
status is TransportError, `MODE` becomes Faulted and no pending change of `DS` is made. -/
def Obligations.FailedWriteFaults : Prop :=
  ∀ (i : Instr) (s : State) (k : Nat), Executes i s → FailsAt k (expansion i s) s →
    ∃ t, exec i s = .next t ∧ Faults k (expansion i s) (dsDuring i s.adapter.ds) s t

/-- R66 (b), R209: whichever write of an instruction is never answered, the instruction never returns: no status, the
write stays outstanding, `MODE` is kept. -/
def Obligations.UnansweredWriteHangs : Prop :=
  ∀ (i : Instr) (s : State) (k : Nat), Executes i s → SilentAt k (expansion i s) s →
    ∃ t, exec i s = .next t ∧ Hangs k (expansion i s) (dsDuring i s.adapter.ds) s t

/-- R209, R243: an instruction whose writes are all answered returns a status. -/
def Obligations.AnsweredInstructionReturns : Prop :=
  ∀ (i : Instr) (s : State), TransportAnswers (writeCount (expansion i s)) s →
    ∃ t st, exec i s = .next t ∧ t.env.statuses = s.env.statuses ++ [st]
      ∧ t.adapter.outstanding = s.adapter.outstanding

/-- R204, R201 to R203: the transition table, column by column: reset, an illegal word, and the operations of the host;
the last clause is a wait, which has no column (R209). -/
def Obligations.ModeFollowsTransitionTable : Prop :=
  (∀ (s t : State) (rest : List Request), s.env.requests = .reset :: rest → step s = .next t →
    t.adapter.mode = .uninitialized)
  ∧ (∀ (s t : State) (w : HostWord) (rest : List Request), s.adapter.outstanding = none →
    s.env.requests = .word w :: rest → IllegalWord w → step s = .next t →
    t.env.statuses = s.env.statuses ++ [.invalidArgument] ∧ t.adapter.mode = s.adapter.mode)
  ∧ ∀ (i : Instr) (s t : State), (∀ nib bl en rs, i ≠ .portbyte nib bl en rs) → exec i s = .next t →
    (i = .init ∧ t.env.statuses = s.env.statuses ++ [.ok] ∧ t.adapter.mode = .ready)
      ∨ (i = .init ∧ t.env.statuses = s.env.statuses ++ [.transportError] ∧ t.adapter.mode = .faulted)
      ∨ (i ≠ .init ∧ t.env.statuses = s.env.statuses ++ [.ok]
          ∧ s.adapter.mode = .ready ∧ t.adapter.mode = .ready)
      ∨ (i ≠ .init ∧ t.env.statuses = s.env.statuses ++ [.transportError]
          ∧ s.adapter.mode = .ready ∧ t.adapter.mode = .faulted)
      ∨ (i ≠ .init ∧ t.env.statuses = s.env.statuses ++ [.notInitializedError]
          ∧ s.adapter.mode ≠ .ready ∧ t.adapter.mode = s.adapter.mode)
      ∨ (i ≠ .init ∧ t.env.statuses = s.env.statuses ++ [.invalidArgument]
          ∧ (s.adapter.mode ≠ .ready → isReserved i = true) ∧ t.adapter.mode = s.adapter.mode)
      ∨ (t.env.statuses = s.env.statuses ∧ t.adapter.outstanding.isSome = true
          ∧ t.adapter.mode = s.adapter.mode)

/-! ## Invariants every step keeps -/

/-- At reset every invariant below holds. -/
def Obligations.ResetMeetsInvariants : Prop :=
  RwClear State.reset ∧ Paired State.reset ∧ EnableRests State.reset ∧ PulsesClean State.reset
    ∧ EntryModeFixed State.reset

/-- R83, R118 (a): no write ever has the RW bit set. -/
def Obligations.StepKeepsRwClear : Prop :=
  ∀ s t : State, RwClear s → step s = .next t → RwClear t

/-- R118 (b), R60 (a), R112: the writes of every trace are whole pulses, but where a failed or an unanswered write cut
one, or `BL_IMMEDIATE` makes a single EN-low write. -/
def Obligations.StepKeepsPulsePairs : Prop :=
  ∀ s t : State, Paired s → step s = .next t → Paired t

/-- R118 (c): in Ready the Enable line rests low after every operation. -/
def Obligations.StepKeepsEnableLow : Prop :=
  ∀ s t : State, EnableRests s → step s = .next t → EnableRests t

/-- R63, R118 (e): every pulse of the trace is clean. A run of EN-high writes that a failed write ends is no pulse: that
is the model's choice (log 23), where R118 (e) excepts a pulse that an `X` cut. -/
def Obligations.StepKeepsPulsesClean : Prop :=
  ∀ s t : State, Paired s → step s = .next t → PulsesClean t

/-- R25, R26: in Ready the entry-mode flags are constant. -/
def Obligations.StepKeepsEntryMode : Prop :=
  ∀ s t : State, EntryModeFixed s → step s = .next t → EntryModeFixed t

/-- R5, R32: no step writes the configuration. -/
def Obligations.StepKeepsConfig : Prop :=
  ∀ s t : State, step s = .next t → t.cfg = s.cfg

/-! ## Whole-machine rules -/

/-- R24, R30: the operations that change a field of `DS` are exactly initialize, the three flag operations and
setBacklight, and each changes only its own fields. -/
def Obligations.DsWrittenOnlyByItsOperations : Prop :=
  ∀ (i : Instr) (s t : State), exec i s = .next t →
    ((∀ on, i ≠ .backlight on) → t.adapter.ds.bl = s.adapter.ds.bl)
      ∧ (i ≠ .init → t.adapter.ds.inc = s.adapter.ds.inc ∧ t.adapter.ds.shift = s.adapter.ds.shift)
      ∧ (i ≠ .init → (∀ v, i ≠ .dispvis v) → t.adapter.ds.disp = s.adapter.ds.disp)
      ∧ (i ≠ .init → (∀ v, i ≠ .curvis v) → t.adapter.ds.cur = s.adapter.ds.cur)
      ∧ (i ≠ .init → (∀ v, i ≠ .curblink v) → t.adapter.ds.blink = s.adapter.ds.blink)

/-- R118 (d), R30, R111: every byte a step writes carries the backlight bit of `DS.BL` as the step leaves it. -/
def Obligations.BacklightBitInEveryByte : Prop :=
  ∀ s t : State, step s = .next t → t.env.trace ≠ [] →
    ∃ new, t.env.trace = s.env.trace ++ new ∧ ∀ b ∈ payloads new, lineLevel s.cfg b .bl = t.adapter.ds.bl

/-- R118 (f): an operation that returns NotInitializedError or InvalidArgument contributes no event and changes
nothing. -/
def Obligations.RefusalChangesNothing : Prop :=
  ∀ (i : Instr) (s t : State) (st : Status), st = .notInitializedError ∨ st = .invalidArgument →
    exec i s = .next t → t.env.statuses = s.env.statuses ++ [st] → RefusedWith st s t

/-- R31, R21, R25, R26, R67: PORT, the working registers, SEQ, DELAY and the entry-mode flags are never read: two states
that differ only there have the same events, statuses, answers left, mode and other flags after the same instruction. -/
def Obligations.HiddenRegistersAreNotRead : Prop :=
  ∀ (i : Instr) (s t : State) (port curb nib : Byte) (rssel inc shift : Bool) (seq delay : Nat),
    exec i s = .next t →
    ∃ u, exec i { s with
        port := port
        adapter := { s.adapter with
          curb := curb, nib := nib, rssel := rssel, seq := seq, delay := delay
          ds := { s.adapter.ds with inc := inc, shift := shift } } } = .next u
      ∧ u.env = t.env ∧ u.adapter.mode = t.adapter.mode ∧ u.adapter.outstanding = t.adapter.outstanding
      ∧ u.adapter.ds.disp = t.adapter.ds.disp ∧ u.adapter.ds.cur = t.adapter.ds.cur
      ∧ u.adapter.ds.blink = t.adapter.ds.blink ∧ u.adapter.ds.bl = t.adapter.ds.bl

/-- R36, R8: no instruction reads the trace or the statuses: whatever was recorded before, the same instruction gives the
same new events and statuses and the same state of everything else. -/
def Obligations.RecordIsNotRead : Prop :=
  ∀ (i : Instr) (s t : State) (trace : List Event) (statuses : List Status), exec i s = .next t →
    ∃ new sts, t.env.trace = s.env.trace ++ new ∧ t.env.statuses = s.env.statuses ++ sts
      ∧ exec i { s with env := { s.env with trace := trace, statuses := statuses } }
          = .next { t with env := { t.env with trace := trace ++ new, statuses := statuses ++ sts } }

/-- R102 (a): presented to an adapter that is ready for them, the words of WRSTR leave the trace and the state that the
abstract writeString leaves, whatever the transport answers, but for the sequencer and the working registers; unless a
write hangs, or the string is empty outside Ready, the status of WRSTR is that of writeString. -/
def Obligations.StringExpansionRunsAsWriteString : Prop :=
  ∀ (bytes : List Byte) (s : State), configWf s.cfg = true → s.adapter.outstanding = none →
    s.env.requests = wrstrRequests bytes →
    ∃ u sts, Host.Core.run Sys2Proof.core bytes.length s = .next u
      ∧ u.env.trace = (writeString bytes s).env.trace
      ∧ u.env.answers = (writeString bytes s).env.answers
      ∧ u.port = (writeString bytes s).port
      ∧ u.adapter.mode = (writeString bytes s).adapter.mode
      ∧ u.adapter.ds = (writeString bytes s).adapter.ds
      ∧ u.adapter.outstanding = (writeString bytes s).adapter.outstanding
      ∧ u.env.statuses = s.env.statuses ++ sts
      ∧ (u.adapter.outstanding = none → bytes ≠ [] ∨ s.adapter.mode = .ready →
          (writeString bytes s).env.statuses = s.env.statuses ++ [wrstrStatus sts])

/-! ## Bytes, arithmetic, the observer, time -/

/-- R82, R83, R57: each line of a port byte carries its own role's bit, and RW is 0. -/
def Obligations.PortByteLines : Prop :=
  ∀ (c : Config) (nib : Nibble) (rs bl en : Bool), configWf c = true →
    lineLevel c (portByte c nib rs bl en) .rs = rs
      ∧ lineLevel c (portByte c nib rs bl en) .rw = false
      ∧ lineLevel c (portByte c nib rs bl en) .en = en
      ∧ lineLevel c (portByte c nib rs bl en) .bl = bl
      ∧ lineLevel c (portByte c nib rs bl en) .d4 = nib.getLsbD 0
      ∧ lineLevel c (portByte c nib rs bl en) .d5 = nib.getLsbD 1
      ∧ lineLevel c (portByte c nib rs bl en) .d6 = nib.getLsbD 2
      ∧ lineLevel c (portByte c nib rs bl en) .d7 = nib.getLsbD 3

/-- R116 (b), (d), (e), (f), (g): no arithmetic of the adapter overflows. -/
def Obligations.ArithmeticDoesNotOverflow : Prop :=
  ∀ c : Config, configWf c = true → c.lcdi = defaultLcdi →
    (∀ v : Byte, joinNibbles (highNibble v) (lowNibble v) = v)
      ∧ (∀ nib rs bl, nibbleByte c bl nib rs &&& enableMask c = 0
          ∧ (nibbleByte c bl nib rs ||| enableMask c) &&& ~~~(enableMask c) = nibbleByte c bl nib rs)
      ∧ (∀ row column : Nat, row < c.rows → column < c.cols →
          (setDdram c (ddramAddress c row column)).toNat = 0x80 + ((rowBaseOf c row).toNat + column))
      ∧ (∀ index : BitVec 4, index.toNat ≤ 7 → (setCgram c index).toNat = 0x40 + 8 * index.toNat)
      ∧ (∀ d cu bk, 0x08 ≤ (dispCtl c d cu bk).toNat ∧ (dispCtl c d cu bk).toNat ≤ 0x0F)

/-- R98: the classifier is LONG exactly for 0x01, 0x02 and 0x03. -/
def Obligations.LongDelayClassIsClearAndHome : Prop :=
  ∀ (c : Config) (cmd : Byte),
    execDelay c cmd = if cmd = 0x01 ∨ cmd = 0x02 ∨ cmd = 0x03 then c.times.long else c.times.cmd

/-- R64, R62: the display receives the byte that was sent, with its register select. -/
def Obligations.DisplayReceivesTheByte : Prop :=
  ∀ (c : Config) (bl : Bool) (v : Byte) (rs : Bool) (delay : Nat), configWf c = true →
    samples c (byteEvents c bl v rs ++ idle delay) = [⟨rs, highNibble v⟩, ⟨rs, lowNibble v⟩]
      ∧ byteView (samples c (byteEvents c bl v rs ++ idle delay)) = [(rs, v)]

/-- R64, R99, R141: the display's view of initialize, with the default LCD constants: four nibbles, then four bytes. -/
def Obligations.DisplayViewOfInit : Prop :=
  ∀ (c : Config) (bl : Bool), configWf c = true → c.lcdi = defaultLcdi →
    (samples c (initEvents c bl)).take 4 = [⟨false, 3⟩, ⟨false, 3⟩, ⟨false, 3⟩, ⟨false, 2⟩]
      ∧ byteView ((samples c (initEvents c bl)).drop 4)
          = [(false, funcSet c), (false, 0x0C), (false, 0x01), (false, 0x06)]

/-- R240: the minimum durations of a pulse, of a byte and of every operation, writeString included, in nanoseconds, with
the default delays and LCD constants, when every write succeeds. -/
def Obligations.MinimumDurations : Prop :=
  ∀ s : State, s.cfg.times = defaultTiming → s.cfg.lcdi = defaultLcdi →
    let takes (i : Instr) (ns : Nat) : Prop :=
      ∀ t, Executes i s → TransportSucceeds (writeCount (expansion i s)) s → exec i s = .next t →
        minDuration t.env.trace = minDuration s.env.trace + ns
    (∀ x, minDuration (pulseEvents s.cfg x) = 2000)
      ∧ (∀ bl v rs, minDuration (byteEvents s.cfg bl v rs) = 4000)
      ∧ (∀ bytes : List Byte, s.adapter.mode = .ready → TransportSucceeds (4 * bytes.length) s →
          minDuration (writeString bytes s).env.trace = minDuration s.env.trace + 44000 * bytes.length)
      ∧ takes .init 21064000
      ∧ (∀ cmd : Byte, cmd ≠ 0x01 → cmd ≠ 0x02 → cmd ≠ 0x03 → takes (.cmd cmd) 44000)
      ∧ (∀ v, takes (.data v) 44000)
      ∧ (∀ v, takes (.wrchar v) 44000)
      ∧ takes .clear 1524000
      ∧ takes .home 1524000
      ∧ (∀ row column, takes (.setcur row column) 44000)
      ∧ (∀ v, takes (.dispvis v) 44000)
      ∧ (∀ v, takes (.curvis v) 44000)
      ∧ (∀ v, takes (.curblink v) 44000)
      ∧ (∀ on, takes (.backlight on) 0)
      ∧ (∀ index rows, rows.length = 8 → takes (.glyph index rows) 396000)
end

