-- ==== Sys2Proof/Laws/Decode.lean ====
section
/-! SUPPORT. The fields of a host word, both ways, and the rows of a glyph payload. -/

namespace Sys2Proof

/-- The fields of a word built from its fields (R84). -/
@[simp] theorem hostOp_hostWord (op a : BitVec 4) (b : Byte) (pl : BitVec 64) : hostOp (hostWord op a b pl) = op := by
  ext i hi
  simp only [hostOp, hostWord, BitVec.getElem_extractLsb', BitVec.getLsbD_append]
  simp [show ¬ 76 + i < 64 by omega, show ¬ 76 + i - 64 < 8 by omega, show ¬ 76 + i - 64 - 8 < 4 by omega,
    show 76 + i - 64 - 8 - 4 = i by omega, BitVec.getLsbD_eq_getElem, hi]

@[simp] theorem hostA_hostWord (op a : BitVec 4) (b : Byte) (pl : BitVec 64) : hostA (hostWord op a b pl) = a := by
  ext i hi
  simp only [hostA, hostWord, BitVec.getElem_extractLsb', BitVec.getLsbD_append]
  simp [show ¬ 72 + i < 64 by omega, show ¬ 72 + i - 64 < 8 by omega,
    show 72 + i - 64 - 8 = i by omega, BitVec.getLsbD_eq_getElem, hi]

@[simp] theorem hostB_hostWord (op a : BitVec 4) (b : Byte) (pl : BitVec 64) : hostB (hostWord op a b pl) = b := by
  ext i hi
  simp only [hostB, hostWord, BitVec.getElem_extractLsb', BitVec.getLsbD_append]
  simp [hi, BitVec.getLsbD_eq_getElem]

@[simp] theorem hostPl_hostWord (op a : BitVec 4) (b : Byte) (pl : BitVec 64) : hostPl (hostWord op a b pl) = pl := by
  ext i hi
  simp only [hostPl, hostWord, BitVec.getElem_extractLsb', BitVec.getLsbD_append]
  simp [hi, BitVec.getLsbD_eq_getElem]

/-- A word is its fields (R84). -/
theorem hostWord_fields (w : HostWord) : hostWord (hostOp w) (hostA w) (hostB w) (hostPl w) = w := by
  apply BitVec.eq_of_getLsbD_eq
  intro i hi
  simp only [hostWord, hostOp, hostA, hostB, hostPl, BitVec.getLsbD_append, BitVec.getLsbD_extractLsb']
  by_cases h1 : i < 64
  · simp [h1]
  · by_cases h2 : i < 72
    · simp [h1, show i - 64 < 8 by omega, show 64 + (i - 64) = i by omega]
    · by_cases h3 : i < 76
      · simp [h1, show ¬ i - 64 < 8 by omega, show i - 64 - 8 < 4 by omega, show 72 + (i - 64 - 8) = i by omega]
      · simp [h1, show ¬ i - 64 < 8 by omega, show ¬ i - 64 - 8 < 4 by omega, show i - 64 - 8 - 4 < 4 by omega,
          show 76 + (i - 64 - 8 - 4) = i by omega]

/-- Masking a word masks its fields. -/
theorem hostWord_and (op op' a a' : BitVec 4) (b b' : Byte) (pl pl' : BitVec 64) :
    hostWord op a b pl &&& hostWord op' a' b' pl' = hostWord (op &&& op') (a &&& a') (b &&& b') (pl &&& pl') := by
  apply BitVec.eq_of_getLsbD_eq
  intro i hi
  simp only [hostWord, BitVec.getLsbD_and, BitVec.getLsbD_append]
  repeat' split
  all_goals rfl

/-- A word is zero when its fields are. -/
theorem hostWord_eq_zero (op a : BitVec 4) (b : Byte) (pl : BitVec 64) :
    hostWord op a b pl = 0 ↔ op = 0 ∧ a = 0 ∧ b = 0 ∧ pl = 0 := by
  constructor
  · intro h
    have h0 : (0 : HostWord) = hostWord 0 0 0 0 := by decide
    rw [h0] at h
    exact ⟨by simpa using congrArg hostOp h, by simpa using congrArg hostA h, by simpa using congrArg hostB h,
      by simpa using congrArg hostPl h⟩
  · rintro ⟨rfl, rfl, rfl, rfl⟩; decide

/-- A word is zero under a mask when each field is zero under its part of the mask. -/
theorem and_hostWord_eq_zero (w : HostWord) (op a : BitVec 4) (b : Byte) (pl : BitVec 64) :
    w &&& hostWord op a b pl = 0
      ↔ hostOp w &&& op = 0 ∧ hostA w &&& a = 0 ∧ hostB w &&& b = 0 ∧ hostPl w &&& pl = 0 := by
  rw [← hostWord_eq_zero, ← hostWord_and, hostWord_fields]

/-- The code of a reserved word (R88). -/
@[simp] theorem hostOp_reservedWord (op : BitVec 4) (rest : BitVec 76) : hostOp (reservedWord op rest) = op := by
  ext i hi
  simp only [hostOp, reservedWord, BitVec.getElem_extractLsb', BitVec.getLsbD_append]
  simp [hi, BitVec.getLsbD_eq_getElem]

/-- The other bits of a reserved word (R88). -/
@[simp] theorem rest_reservedWord (op : BitVec 4) (rest : BitVec 76) :
    (reservedWord op rest).extractLsb' 0 76 = rest := by
  ext i hi
  simp only [reservedWord, BitVec.getElem_extractLsb', BitVec.getLsbD_append]
  simp [hi, BitVec.getLsbD_eq_getElem]

/-- A word is its code and its other bits (R88). -/
theorem reservedWord_parts (w : HostWord) : reservedWord (hostOp w) (w.extractLsb' 0 76) = w := by
  apply BitVec.eq_of_getLsbD_eq
  intro i hi
  simp only [reservedWord, hostOp, BitVec.getLsbD_append, BitVec.getLsbD_extractLsb']
  by_cases h1 : i < 76
  · simp [h1]
  · simp [h1, show i - 76 < 4 by omega, show 76 + (i - 76) = i by omega]

/-- Bit `i` of a payload is bit `i % 8` of row `i / 8` (R86). -/
theorem getLsbD_glyphPayload (rows : List Byte) (i : Nat) (hi : i < 64) :
    (glyphPayload rows).getLsbD i = (rows.getD (i / 8) 0).getLsbD (i % 8) := by
  induction rows generalizing i with
  | nil => simp [glyphPayload]
  | cons r rs ih =>
    simp only [glyphPayload, BitVec.getLsbD_or, BitVec.getLsbD_shiftLeft, BitVec.getLsbD_setWidth, hi, decide_true,
      Bool.true_and]
    by_cases h : i < 8
    · simp [h, Nat.div_eq_of_lt h, Nat.mod_eq_of_lt h]
    · have h8 : i / 8 = (i - 8) / 8 + 1 := by omega
      have hm : (i - 8) % 8 = i % 8 := by omega
      rw [ih (i - 8) (by omega), h8, List.getD_cons_succ, hm]
      simp [h, BitVec.getLsbD_of_ge r i (by omega)]

/-- The rows of the payload of eight rows are those rows (R86). -/
theorem glyphRows_glyphPayload (rows : List Byte) (h : rows.length = 8) : glyphRows (glyphPayload rows) = rows := by
  apply List.ext_getElem
  · simp [glyphRows, h]
  · intro j h1 h2
    simp only [glyphRows, List.getElem_map, List.getElem_range]
    ext i hi
    rw [BitVec.getElem_extractLsb', getLsbD_glyphPayload rows _ (by omega), show (8 * j + i) / 8 = j by omega,
      show (8 * j + i) % 8 = i by omega, List.getD_eq_getElem _ _ (by omega), BitVec.getLsbD_eq_getElem hi]

/-- The payload of the rows of a payload is that payload (R86). -/
theorem glyphPayload_glyphRows (pl : BitVec 64) : glyphPayload (glyphRows pl) = pl := by
  apply BitVec.eq_of_getLsbD_eq
  intro i hi
  rw [getLsbD_glyphPayload _ i hi]
  have h : i / 8 < (glyphRows pl).length := by simp [glyphRows]; omega
  rw [List.getD_eq_getElem _ _ h]
  simp only [glyphRows, List.getElem_map, List.getElem_range, BitVec.getLsbD_extractLsb']
  rw [show 8 * (i / 8) + i % 8 = i by omega]
  simp [show i % 8 < 8 by omega]

@[simp] theorem length_glyphRows (pl : BitVec 64) : (glyphRows pl).length = 8 := by simp [glyphRows]

/-! ## What decodes to what -/

theorem decode_noOperand {w : HostWord} {i j : Instr} (h : noOperand w i = .ok j) :
    j = i ∧ hostA w = 0 ∧ hostB w = 0 ∧ hostPl w = 0 := by
  unfold noOperand at h
  split at h <;> simp_all
  split at h <;> simp_all
  split at h <;> simp_all

theorem decode_byteOperand {w : HostWord} {f : Byte → Instr} {j : Instr} (h : byteOperand w f = .ok j) :
    j = f (hostB w) ∧ hostA w = 0 ∧ hostPl w = 0 := by
  unfold byteOperand at h
  split at h <;> simp_all
  split at h <;> simp_all

theorem decode_boolOperand {w : HostWord} {f : Bool → Instr} {j : Instr} (h : boolOperand w f = .ok j) :
    j = f ((hostB w).getLsbD 0) ∧ hostA w = 0 ∧ (hostB w).extractLsb' 1 7 = 0 ∧ hostPl w = 0 := by
  unfold boolOperand at h
  split at h <;> simp_all
  split at h <;> simp_all
  split at h <;> simp_all

end Sys2Proof
end

