-- ==== Sys2Proof/Laws/Observer.lean ====
section
/-! SUPPORT. The small lemmas of the trace functions: how each reads an append, and what a cut list is. -/

namespace Sys2Proof.Machine

/-- A list with no failed write: what an operation's rule gives. -/
def NoFailure (t : List Event) : Prop := ∀ b, Event.X b ∉ t

@[simp] theorem payloads_nil : payloads [] = [] := rfl
@[simp] theorem payloads_w (b : Byte) (es : List Event) : payloads (.W b :: es) = b :: payloads es := rfl
@[simp] theorem payloads_x (b : Byte) (es : List Event) : payloads (.X b :: es) = b :: payloads es := rfl
@[simp] theorem payloads_d (t : Nat) (es : List Event) : payloads (.D t :: es) = payloads es := rfl
@[simp] theorem payloads_append (a b : List Event) : payloads (a ++ b) = payloads a ++ payloads b := by
  simp [payloads]

@[simp] theorem writeCount_nil : writeCount [] = 0 := rfl
@[simp] theorem writeCount_w (b : Byte) (es : List Event) : writeCount (.W b :: es) = writeCount es + 1 := rfl
@[simp] theorem writeCount_x (b : Byte) (es : List Event) : writeCount (.X b :: es) = writeCount es + 1 := rfl
@[simp] theorem writeCount_d (t : Nat) (es : List Event) : writeCount (.D t :: es) = writeCount es := rfl
@[simp] theorem writeCount_append (a b : List Event) : writeCount (a ++ b) = writeCount a + writeCount b := by
  simp [writeCount]

@[simp] theorem payloads_idle (t : Nat) : payloads (idle t) = [] := by
  unfold idle; split <;> rfl

@[simp] theorem writeCount_idle (t : Nat) : writeCount (idle t) = 0 := by
  simp [writeCount]

@[simp] theorem portAfter_append (a b : List Event) (p : Byte) :
    portAfter p (a ++ b) = portAfter (portAfter p a) b := by
  induction a generalizing p with
  | nil => rfl
  | cons e es ih => cases e <;> simp [portAfter, ih]

@[simp] theorem portAfter_idle (t : Nat) (p : Byte) : portAfter p (idle t) = p := by
  unfold idle; split <;> rfl

@[simp] theorem minDuration_append (a b : List Event) : minDuration (a ++ b) = minDuration a + minDuration b := by
  induction a with
  | nil => simp [minDuration]
  | cons e es ih => cases e <;> simp [minDuration, ih, Nat.add_assoc]

@[simp] theorem minDuration_idle (t : Nat) : minDuration (idle t) = t := by
  unfold idle; split <;> simp_all [minDuration]

/-- Adding adjacent delays changes no minimum duration (R8). -/
theorem minDuration_mergeDelays (t : List Event) : minDuration (mergeDelays t) = minDuration t := by
  induction t with
  | nil => rfl
  | cons e es ih =>
    cases e with
    | W b => simpa [mergeDelays, minDuration] using ih
    | X b => simpa [mergeDelays, minDuration] using ih
    | D u =>
      simp only [mergeDelays, minDuration]
      split <;> rename_i h <;> rw [← ih] <;> simp [h, minDuration, Nat.add_assoc]

/-- The events before write `k` of a list and the failed write are the cut list. -/
theorem cutAtWrite_eq (es : List Event) (k : Nat) (h : k < writeCount es) (hx : NoFailure es) :
    ∃ b, (payloads es)[k]? = some b ∧ cutAtWrite k es = beforeWrite k es ++ [.X b] := by
  induction es generalizing k with
  | nil => simp at h
  | cons e es ih =>
    have hx' : NoFailure es := fun b hb => hx b (List.mem_cons_of_mem _ hb)
    cases e with
    | W b =>
      cases k with
      | zero => exact ⟨b, by simp, by simp [cutAtWrite, beforeWrite]⟩
      | succ k =>
        obtain ⟨c, hc, he⟩ := ih k (by simpa using h) hx'
        exact ⟨c, by simpa using hc, by simp [cutAtWrite, beforeWrite, he]⟩
    | X b => exact absurd (List.mem_cons_self) (hx b)
    | D t =>
      obtain ⟨c, hc, he⟩ := ih k (by simpa using h) hx'
      exact ⟨c, by simpa using hc, by simp [cutAtWrite, beforeWrite, he]⟩

/-- Write `k` comes after the first `n` events when these hold at most `k` writes: stopping before it keeps them. -/
theorem take_beforeWrite (es : List Event) (n k : Nat) (hx : NoFailure es) (h : writeCount (es.take n) ≤ k) :
    (beforeWrite k es).take n = es.take n ∧ (n ≤ es.length → n ≤ (beforeWrite k es).length) := by
  induction es generalizing n k with
  | nil => simp [beforeWrite]
  | cons e es ih =>
    have hx' : NoFailure es := fun b hb => hx b (List.mem_cons_of_mem _ hb)
    cases n with
    | zero => simp
    | succ n =>
      cases e with
      | X b => exact absurd (List.mem_cons_self) (hx b)
      | D t =>
        have := ih n k hx' (by simpa using h)
        simpa [beforeWrite, this.1] using this.2
      | W b =>
        cases k with
        | zero => simp at h
        | succ k =>
          have := ih n k hx' (by simpa using h)
          simpa [beforeWrite, this.1] using this.2

/-- So does cutting the list at it. -/
theorem take_cutAtWrite (es : List Event) (n k : Nat) (hx : NoFailure es) (h : writeCount (es.take n) ≤ k)
    (hk : k < writeCount es) :
    (cutAtWrite k es).take n = es.take n ∧ (n ≤ es.length → n ≤ (cutAtWrite k es).length) := by
  obtain ⟨b, -, e⟩ := cutAtWrite_eq es k hk hx
  obtain ⟨h1, h2⟩ := take_beforeWrite es n k hx h
  rw [e]
  by_cases hn : n ≤ es.length
  · exact ⟨by rw [List.take_append_of_le_length (h2 hn), h1], fun _ => by simpa using Nat.le_succ_of_le (h2 hn)⟩
  · rw [List.take_of_length_le (by omega)] at h; omega

theorem payloads_flatMap {α : Type} (l : List α) (f : α → List Event) :
    payloads (l.flatMap f) = l.flatMap fun a => payloads (f a) := by
  induction l with
  | nil => rfl
  | cons x xs ih => simp [ih]

/-- The writes before write `k` are writes of the list. -/
theorem mem_payloads_beforeWrite {es : List Event} {k : Nat} {b : Byte} (h : b ∈ payloads (beforeWrite k es)) :
    b ∈ payloads es := by
  induction es generalizing k with
  | nil => simp [beforeWrite] at h
  | cons e es ih =>
    cases e with
    | D t => cases k <;> exact ih (by simpa [beforeWrite] using h)
    | X x =>
      have h' : b ∈ payloads (.X x :: beforeWrite k es) := by cases k <;> simpa [beforeWrite] using h
      rcases List.mem_cons.1 h' with h' | h'
      · simp [h']
      · simp [ih h']
    | W x =>
      cases k with
      | zero => simp [beforeWrite] at h
      | succ k =>
        rcases List.mem_cons.1 (show b ∈ x :: payloads (beforeWrite k es) from h) with h' | h'
        · simp [h']
        · simp [ih h']

/-- The writes of a list cut at write `k` are writes of the list. -/
theorem mem_payloads_cutAtWrite {es : List Event} {k : Nat} {b : Byte} (h : b ∈ payloads (cutAtWrite k es)) :
    b ∈ payloads es := by
  induction es generalizing k with
  | nil => simp [cutAtWrite] at h
  | cons e es ih =>
    cases e with
    | D t => cases k <;> exact ih (by simpa [cutAtWrite] using h)
    | X x =>
      have h' : b ∈ payloads (.X x :: cutAtWrite k es) := by cases k <;> simpa [cutAtWrite] using h
      rcases List.mem_cons.1 h' with h' | h'
      · simp [h']
      · simp [ih h']
    | W x =>
      cases k with
      | zero =>
        have h' : b = x := by simpa [cutAtWrite] using h
        simp [h']
      | succ k =>
        rcases List.mem_cons.1 (show b ∈ x :: payloads (cutAtWrite k es) from h) with h' | h'
        · simp [h']
        · simp [ih h']

theorem noFailure_idle (t : Nat) : NoFailure (idle t) := by
  intro b; unfold idle; split <;> simp

theorem noFailure_append {a b : List Event} (ha : NoFailure a) (hb : NoFailure b) : NoFailure (a ++ b) := by
  intro x hx
  rcases List.mem_append.1 hx with h | h
  · exact ha x h
  · exact hb x h

/-! ## The pairs of R118 (b) -/

/-- Reading a trace in two parts. -/
theorem pairing_append (c : Config) (p : Option Byte) (a b : List Event) :
    pairing c p (a ++ b) = (pairing c p a).bind fun q => pairing c q b := by
  induction a generalizing p with
  | nil => cases p <;> simp [pairing]
  | cons e es ih =>
    cases e <;> cases p <;> simp only [List.cons_append, pairing, ih] <;> (repeat' split) <;> simp

@[simp] theorem pairing_idle (c : Config) (p : Option Byte) (t : Nat) : pairing c p (idle t) = some p := by
  unfold idle; split <;> cases p <;> simp [pairing]

/-- A whole list of pairs cut before a write: either no pair is open, or the write that would close it is the next. -/
theorem pairing_beforeWrite (c : Config) (es : List Event) (hx : NoFailure es) (p : Option Byte) (k : Nat)
    (h : pairing c p es = some none) (hk : k < writeCount es) :
    pairing c p (beforeWrite k es) = some none
      ∨ ∃ x, pairing c p (beforeWrite k es) = some (some x) ∧ (payloads es)[k]? = some x := by
  induction es generalizing p k with
  | nil => simp at hk
  | cons e es ih =>
    have hx' : NoFailure es := fun b hb => hx b (List.mem_cons_of_mem _ hb)
    cases e with
    | X b => exact absurd (List.mem_cons_self) (hx b)
    | D t =>
      have h' : pairing c p es = some none := by cases p <;> simpa [pairing] using h
      have := ih hx' p k h' (by simpa using hk)
      cases p <;> simpa [pairing, beforeWrite] using this
    | W b =>
      cases p with
      | none =>
        cases k with
        | zero => left; simp [beforeWrite, pairing]
        | succ k =>
          simp only [pairing] at h
          by_cases he : enableSet c b = true
          · rw [if_pos he] at h
            simpa [beforeWrite, pairing, he] using ih hx' _ k h (by simpa using hk)
          · rw [if_neg he] at h
            by_cases hi : c.blImmediate = true
            · rw [if_pos hi] at h
              simpa [beforeWrite, pairing, he, hi] using ih hx' _ k h (by simpa using hk)
            · rw [if_neg hi] at h; simp at h
      | some x =>
        simp only [pairing] at h
        by_cases hb : b = x
        · rw [if_pos hb] at h
          cases k with
          | zero => right; exact ⟨x, by simp [beforeWrite, pairing], by simp [hb]⟩
          | succ k => simpa [beforeWrite, pairing, hb] using ih hx' _ k h (by simpa using hk)
        · rw [if_neg hb] at h; simp at h

/-- A whole list of pairs cut at a failed write leaves no pair open. -/
theorem pairing_cutAtWrite (c : Config) (es : List Event) (hx : NoFailure es) (p : Option Byte) (k : Nat)
    (h : pairing c p es = some none) (hk : k < writeCount es) :
    pairing c p (cutAtWrite k es) = some none := by
  induction es generalizing p k with
  | nil => simp at hk
  | cons e es ih =>
    have hx' : NoFailure es := fun b hb => hx b (List.mem_cons_of_mem _ hb)
    cases e with
    | X b => exact absurd (List.mem_cons_self) (hx b)
    | D t =>
      have h' : pairing c p es = some none := by cases p <;> simpa [pairing] using h
      have := ih hx' p k h' (by simpa using hk)
      cases p <;> simpa [pairing, cutAtWrite] using this
    | W b =>
      cases p with
      | none =>
        simp only [pairing] at h
        by_cases he : enableSet c b = true
        · rw [if_pos he] at h
          cases k with
          | zero => simp [cutAtWrite, pairing, he]
          | succ k => simpa [cutAtWrite, pairing, he] using ih hx' _ k h (by simpa using hk)
        · rw [if_neg he] at h
          by_cases hi : c.blImmediate = true
          · rw [if_pos hi] at h
            cases k with
            | zero => simp [cutAtWrite, pairing, hi]
            | succ k => simpa [cutAtWrite, pairing, he, hi] using ih hx' _ k h (by simpa using hk)
          · rw [if_neg hi] at h; simp at h
      | some x =>
        simp only [pairing] at h
        by_cases hb : b = x
        · rw [if_pos hb] at h
          cases k with
          | zero => simp [cutAtWrite, pairing, hb]
          | succ k => simpa [cutAtWrite, pairing, hb] using ih hx' _ k h (by simpa using hk)
        · rw [if_neg hb] at h; simp at h

end Sys2Proof.Machine
end

