-- ==== Sys2Proof/Laws/State.lean ====
section
/-! SUPPORT. One lemma per field of State per register update, true by unfolding. -/

namespace Sys2Proof.Machine

@[simp] theorem setMode_cfg (m : Mode) (s : State) : (setMode m s).cfg = s.cfg := rfl
@[simp] theorem setMode_adapter (m : Mode) (s : State) : (setMode m s).adapter = { s.adapter with mode := m } := rfl
@[simp] theorem setMode_port (m : Mode) (s : State) : (setMode m s).port = s.port := rfl
@[simp] theorem setMode_env (m : Mode) (s : State) : (setMode m s).env = s.env := rfl

@[simp] theorem updateDs_cfg (f : DisplayState → DisplayState) (s : State) : (updateDs f s).cfg = s.cfg := rfl
@[simp] theorem updateDs_adapter (f : DisplayState → DisplayState) (s : State) : (updateDs f s).adapter = { s.adapter with ds := f s.adapter.ds } := rfl
@[simp] theorem updateDs_port (f : DisplayState → DisplayState) (s : State) : (updateDs f s).port = s.port := rfl
@[simp] theorem updateDs_env (f : DisplayState → DisplayState) (s : State) : (updateDs f s).env = s.env := rfl

@[simp] theorem setSeq_cfg (n : Nat) (s : State) : (setSeq n s).cfg = s.cfg := rfl
@[simp] theorem setSeq_adapter (n : Nat) (s : State) : (setSeq n s).adapter = { s.adapter with seq := n } := rfl
@[simp] theorem setSeq_port (n : Nat) (s : State) : (setSeq n s).port = s.port := rfl
@[simp] theorem setSeq_env (n : Nat) (s : State) : (setSeq n s).env = s.env := rfl

@[simp] theorem setDelay_cfg (n : Nat) (s : State) : (setDelay n s).cfg = s.cfg := rfl
@[simp] theorem setDelay_adapter (n : Nat) (s : State) : (setDelay n s).adapter = { s.adapter with delay := n } := rfl
@[simp] theorem setDelay_port (n : Nat) (s : State) : (setDelay n s).port = s.port := rfl
@[simp] theorem setDelay_env (n : Nat) (s : State) : (setDelay n s).env = s.env := rfl

@[simp] theorem setNib_cfg (x : Byte) (s : State) : (setNib x s).cfg = s.cfg := rfl
@[simp] theorem setNib_adapter (x : Byte) (s : State) : (setNib x s).adapter = { s.adapter with nib := x } := rfl
@[simp] theorem setNib_port (x : Byte) (s : State) : (setNib x s).port = s.port := rfl
@[simp] theorem setNib_env (x : Byte) (s : State) : (setNib x s).env = s.env := rfl

@[simp] theorem setOutstanding_cfg (b : Byte) (s : State) : (setOutstanding b s).cfg = s.cfg := rfl
@[simp] theorem setOutstanding_adapter (b : Byte) (s : State) : (setOutstanding b s).adapter = { s.adapter with outstanding := some b } := rfl
@[simp] theorem setOutstanding_port (b : Byte) (s : State) : (setOutstanding b s).port = s.port := rfl
@[simp] theorem setOutstanding_env (b : Byte) (s : State) : (setOutstanding b s).env = s.env := rfl

@[simp] theorem setPort_cfg (b : Byte) (s : State) : (setPort b s).cfg = s.cfg := rfl
@[simp] theorem setPort_adapter (b : Byte) (s : State) : (setPort b s).adapter = s.adapter := rfl
@[simp] theorem setPort_port (b : Byte) (s : State) : (setPort b s).port = b := rfl
@[simp] theorem setPort_env (b : Byte) (s : State) : (setPort b s).env = s.env := rfl

@[simp] theorem logEvent_cfg (e : Event) (s : State) : (logEvent e s).cfg = s.cfg := rfl
@[simp] theorem logEvent_adapter (e : Event) (s : State) : (logEvent e s).adapter = s.adapter := rfl
@[simp] theorem logEvent_port (e : Event) (s : State) : (logEvent e s).port = s.port := rfl
@[simp] theorem logEvent_env (e : Event) (s : State) : (logEvent e s).env = { s.env with trace := s.env.trace ++ [e] } := rfl

@[simp] theorem returnStatus_cfg (st : Status) (s : State) : (returnStatus st s).cfg = s.cfg := rfl
@[simp] theorem returnStatus_adapter (st : Status) (s : State) : (returnStatus st s).adapter = s.adapter := rfl
@[simp] theorem returnStatus_port (st : Status) (s : State) : (returnStatus st s).port = s.port := rfl
@[simp] theorem returnStatus_env (st : Status) (s : State) : (returnStatus st s).env = { s.env with statuses := s.env.statuses ++ [st] } := rfl

@[simp] theorem dropAnswer_cfg (s : State) : (dropAnswer s).cfg = s.cfg := rfl
@[simp] theorem dropAnswer_adapter (s : State) : (dropAnswer s).adapter = s.adapter := rfl
@[simp] theorem dropAnswer_port (s : State) : (dropAnswer s).port = s.port := rfl
@[simp] theorem dropAnswer_env (s : State) : (dropAnswer s).env = { s.env with answers := s.env.answers.tail } := rfl

@[simp] theorem countDraw_cfg (s : State) : (countDraw s).cfg = s.cfg := rfl
@[simp] theorem countDraw_adapter (s : State) : (countDraw s).adapter = s.adapter := rfl
@[simp] theorem countDraw_port (s : State) : (countDraw s).port = s.port := rfl
@[simp] theorem countDraw_env (s : State) : (countDraw s).env = { s.env with draws := s.env.draws + 1 } := rfl

@[simp] theorem advance_cfg (s : State) : (advance s).cfg = s.cfg := rfl
@[simp] theorem advance_adapter (s : State) : (advance s).adapter = { s.adapter with seq := s.adapter.seq + 1 } := rfl
@[simp] theorem advance_port (s : State) : (advance s).port = s.port := rfl
@[simp] theorem advance_env (s : State) : (advance s).env = s.env := rfl

@[simp] theorem dropRequest_cfg (s : State) : (dropRequest s).cfg = s.cfg := rfl
@[simp] theorem dropRequest_adapter (s : State) : (dropRequest s).adapter = s.adapter := rfl
@[simp] theorem dropRequest_port (s : State) : (dropRequest s).port = s.port := rfl
@[simp] theorem dropRequest_env (s : State) : (dropRequest s).env = { s.env with requests := s.env.requests.tail } := rfl

@[simp] theorem dropReset_cfg (s : State) : (dropReset s).cfg = s.cfg := rfl
@[simp] theorem dropReset_adapter (s : State) : (dropReset s).adapter = s.adapter := rfl
@[simp] theorem dropReset_port (s : State) : (dropReset s).port = s.port := rfl
@[simp] theorem dropReset_env (s : State) : (dropReset s).env = { s.env with requests := s.env.requests.erase .reset } := rfl

@[simp] theorem setCurrent_cfg (v : Byte) (rs : Bool) (s : State) : (setCurrent v rs s).cfg = s.cfg := rfl
@[simp] theorem setCurrent_adapter (v : Byte) (rs : Bool) (s : State) : (setCurrent v rs s).adapter = { s.adapter with curb := v, rssel := rs } := rfl
@[simp] theorem setCurrent_port (v : Byte) (rs : Bool) (s : State) : (setCurrent v rs s).port = s.port := rfl
@[simp] theorem setCurrent_env (v : Byte) (rs : Bool) (s : State) : (setCurrent v rs s).env = s.env := rfl

@[simp] theorem stoppedAfter_cfg (n : Nat) (s t : State) : (stoppedAfter n s t).cfg = s.cfg := rfl
@[simp] theorem stoppedAfter_adapter (n : Nat) (s t : State) : (stoppedAfter n s t).adapter = s.adapter := rfl
@[simp] theorem stoppedAfter_port (n : Nat) (s t : State) : (stoppedAfter n s t).port = s.port := rfl
@[simp] theorem stoppedAfter_env (n : Nat) (s t : State) : (stoppedAfter n s t).env = { s.env with answers := s.env.answers.drop (writeCount ((eventsBetween s t).take n)), trace := s.env.trace ++ (eventsBetween s t).take n } := rfl

@[simp] theorem assertReset_cfg (s : State) : (assertReset s).cfg = s.cfg := rfl
@[simp] theorem assertReset_adapter (s : State) : (assertReset s).adapter = resetAdapter s.env.draws := rfl
@[simp] theorem assertReset_port (s : State) : (assertReset s).port = Config.portAfterReset s.env.draws := rfl
@[simp] theorem assertReset_env (s : State) : (assertReset s).env = { s.env with draws := s.env.draws + 1, trace := [], statuses := [] } := rfl

end Sys2Proof.Machine
end

