-- ==== Sys2Proof/Laws/Ops.lean ====
section
/-! SUPPORT. Once, everything each shared operation can do: `perform` over any expansion, in its three cases, `transmit`
and `requireReady`. -/

namespace Sys2Proof.Machine

/-- The events of an expansion whose writes all succeed. -/
def actionEvents : List Action → List Event
  | [] => []
  | .current _ _ :: as => actionEvents as
  | .nib _ :: as => actionEvents as
  | .write b :: as => .W b :: actionEvents as
  | .delay t :: as => idle t ++ actionEvents as

@[simp] theorem actionEvents_append (a b : List Action) :
    actionEvents (a ++ b) = actionEvents a ++ actionEvents b := by
  induction a with
  | nil => rfl
  | cons x xs ih => cases x <;> simp [actionEvents, ih]

@[simp] theorem actionEvents_flatMap {α : Type} (l : List α) (f : α → List Action) :
    actionEvents (l.flatMap f) = l.flatMap fun a => actionEvents (f a) := by
  induction l with
  | nil => rfl
  | cons x xs ih => simp [ih]

theorem noFailure_actionEvents (as : List Action) : NoFailure (actionEvents as) := by
  intro b
  induction as with
  | nil => simp [actionEvents]
  | cons x xs ih =>
    cases x <;> simp only [actionEvents, List.mem_append, List.mem_cons, not_or] <;>
      first | exact ih | skip
    · exact ⟨by simp, ih⟩
    · refine ⟨?_, ih⟩; unfold idle; split <;> simp

/-! ## The expansions are the event lists of the rules -/

theorem actionEvents_sendNibble (c : Config) (bl : Bool) (nib : Nibble) (rs : Bool) :
    actionEvents (sendNibble c bl nib rs) = pulseEvents c (nibbleByte c bl nib rs) := by
  simp [sendNibble, pulseNibble, actionEvents, pulseEvents]

@[simp] theorem actionEvents_rawNibble (c : Config) (bl : Bool) (nib : Nibble) :
    actionEvents (rawNibble c bl nib) = pulseEvents c (nibbleByte c bl nib false) :=
  actionEvents_sendNibble c bl nib false

@[simp] theorem actionEvents_writeByte (c : Config) (bl : Bool) (v : Byte) (rs : Bool) :
    actionEvents (writeByte c bl v rs) = byteEvents c bl v rs := by
  simp [writeByte, actionEvents, byteEvents, actionEvents_sendNibble]

@[simp] theorem actionEvents_commandActions (c : Config) (bl : Bool) (cmd : Byte) :
    actionEvents (commandActions c bl cmd) = commandEvents c bl cmd := by
  simp [commandActions, commandEvents, actionEvents]

@[simp] theorem actionEvents_dataActions (c : Config) (bl : Bool) (v : Byte) :
    actionEvents (dataActions c bl v) = dataEvents c bl v := by
  simp [dataActions, dataEvents, actionEvents]

@[simp] theorem actionEvents_handshake (c : Config) (bl : Bool) :
    actionEvents (handshake c bl) = handshakeEvents c bl := by
  cases h : c.lcdi.initNibbles <;> simp [handshake, handshakeEvents, h, actionEvents]

@[simp] theorem actionEvents_initActions (c : Config) (bl : Bool) :
    actionEvents (initActions c bl) = initEvents c bl := by
  simp [initActions, initEvents, actionEvents]

@[simp] theorem actionEvents_glyphActions (c : Config) (bl : Bool) (index : BitVec 4) (rows : List Byte) :
    actionEvents (glyphActions c bl index rows) = glyphEvents c bl index rows := by
  simp [glyphActions, glyphEvents]

@[simp] theorem actionEvents_backlightActions (c : Config) (on : Bool) :
    actionEvents (backlightActions c on) = backlightEvents c on := by
  unfold backlightActions backlightEvents
  split <;> rfl

/-! ## The runner -/

/-- What running events leaves as it was, and what it leaves of the trace, the answers and the port. -/
def Ran (evs ran : List Event) (used : Nat) (s t : State) : Prop :=
  t.cfg = s.cfg ∧ t.adapter.mode = s.adapter.mode ∧ t.adapter.ds = s.adapter.ds
    ∧ t.adapter.seq = s.adapter.seq + ran.length
    ∧ (s.adapter.delay = 0 → t.adapter.delay = 0)
    ∧ t.port = portAfter s.port ran
    ∧ t.env = { s.env with answers := s.env.answers.drop used, trace := s.env.trace ++ evs }

theorem delayFor_ran (t : Nat) (s : State) :
    Ran (idle t) (idle t) 0 s (delayFor t s) ∧ (delayFor t s).adapter.outstanding = s.adapter.outstanding := by
  unfold Ran delayFor idle
  split <;> simp [portAfter]

theorem memWrite_success {b : Byte} {s : State} {as : List Answer} (h : s.env.answers = .success :: as) :
    memWrite b s = (.done, advance (setPort b (logEvent (.W b) (dropAnswer s)))) := by
  simp [memWrite, h]

theorem transportSucceeds_succ {n : Nat} {s : State} (h : TransportSucceeds (n + 1) s) :
    ∃ as, s.env.answers = .success :: as ∧ as.take n = List.replicate n .success := by
  unfold TransportSucceeds at h
  cases ha : s.env.answers with
  | nil => simp [ha] at h
  | cons a as =>
    rw [ha, List.replicate_succ, List.take_succ_cons] at h
    injection h with h1 h2
    exact ⟨as, by rw [h1], h2⟩

/-- Two runs in a row are one. -/
theorem Ran.trans {e1 r1 e2 r2 : List Event} {n1 n2 : Nat} {s t u : State}
    (h1 : Ran e1 r1 n1 s t) (h2 : Ran e2 r2 n2 t u) : Ran (e1 ++ e2) (r1 ++ r2) (n1 + n2) s u := by
  obtain ⟨a1, a2, a3, a4, a5, a6, a7⟩ := h1
  obtain ⟨b1, b2, b3, b4, b5, b6, b7⟩ := h2
  refine ⟨b1.trans a1, b2.trans a2, b3.trans a3, ?_, fun h => b5 (a5 h), ?_, ?_⟩
  · rw [b4, a4, List.length_append]; omega
  · rw [b6, a6, portAfter_append]
  · rw [b7, a7]; simp [List.drop_drop]

/-- Every write of the expansion succeeds: its events all happen. -/
theorem perform_success (acts : List Action) (s : State) (h : TransportSucceeds (writeCount (actionEvents acts)) s) :
    ∃ t, perform acts s = (.done, t)
      ∧ Ran (actionEvents acts) (actionEvents acts) (writeCount (actionEvents acts)) s t
      ∧ t.adapter.outstanding = s.adapter.outstanding := by
  induction acts generalizing s with
  | nil => exact ⟨s, rfl, by simp [Ran, actionEvents, portAfter], rfl⟩
  | cons a as ih =>
    cases a with
    | current v rs => exact ih (setCurrent v rs s) h
    | nib x => exact ih (setNib x s) h
    | delay d =>
      have hd := delayFor_ran d s
      have hs : TransportSucceeds (writeCount (actionEvents as)) (delayFor d s) := by
        simpa [TransportSucceeds, hd.1.2.2.2.2.2.2, actionEvents] using h
      obtain ⟨t, ht, hr, ho⟩ := ih _ hs
      exact ⟨t, ht, by simpa [actionEvents] using hd.1.trans hr, ho.trans hd.2⟩
    | write b =>
      obtain ⟨ans, ha, hn⟩ := transportSucceeds_succ (by simpa [actionEvents] using h)
      obtain ⟨t, ht, hr, ho⟩ := ih (advance (setPort b (logEvent (.W b) (dropAnswer s))))
        (by simpa [TransportSucceeds, ha] using hn)
      refine ⟨t, by simp [perform, memWrite_success ha, ht], ?_, by simpa using ho⟩
      have h1 : Ran [.W b] [.W b] 1 s (advance (setPort b (logEvent (.W b) (dropAnswer s)))) := by
        simp [Ran, portAfter]
      simpa [actionEvents, Nat.add_comm] using h1.trans hr

/-- Write number `k` of the expansion fails: the events before it have happened, and it is recorded as `X`. -/
theorem perform_failure (acts : List Action) (s : State) (k : Nat) (h : FailsAt k (actionEvents acts) s) :
    ∃ t, perform acts s = (.failed, t)
      ∧ Ran (cutAtWrite k (actionEvents acts)) (beforeWrite k (actionEvents acts)) (k + 1) s t
      ∧ t.adapter.outstanding = s.adapter.outstanding := by
  induction acts generalizing s k with
  | nil => exact absurd h.1 (by simp [actionEvents])
  | cons a as ih =>
    cases a with
    | current v rs => exact ih (setCurrent v rs s) k h
    | nib x => exact ih (setNib x s) k h
    | delay d =>
      have hd := delayFor_ran d s
      obtain ⟨h1, h2, h3⟩ := h
      have hs : FailsAt k (actionEvents as) (delayFor d s) := by
        refine ⟨by simpa [actionEvents] using h1, ?_, ?_⟩
        · simpa [TransportSucceeds, hd.1.2.2.2.2.2.2] using h2
        · simpa [hd.1.2.2.2.2.2.2] using h3
      obtain ⟨t, ht, hr, ho⟩ := ih _ k hs
      refine ⟨t, ht, ?_, ho.trans hd.2⟩
      have := hd.1.trans hr
      rw [Nat.zero_add] at this
      unfold idle at this
      by_cases h0 : d = 0
      · simpa [h0, actionEvents, idle] using this
      · simpa [h0, actionEvents, idle, cutAtWrite, beforeWrite] using this
    | write b =>
      obtain ⟨h1, h2, h3⟩ := h
      cases k with
      | zero =>
        cases ha : s.env.answers with
        | nil => simp [ha] at h3
        | cons x xs =>
          obtain rfl : x = .failure := by simpa [ha] using h3
          refine ⟨logEvent (.X b) (dropAnswer s), by simp [perform, memWrite, ha], ?_, by simp⟩
          simp [Ran, actionEvents, cutAtWrite, beforeWrite, portAfter]
      | succ k =>
        obtain ⟨ans, ha, hn⟩ := transportSucceeds_succ h2
        obtain ⟨t, ht, hr, ho⟩ := ih (advance (setPort b (logEvent (.W b) (dropAnswer s)))) k
          ⟨by simpa [actionEvents] using h1, by simpa [TransportSucceeds, ha] using hn, by simpa [ha] using h3⟩
        refine ⟨t, by simp [perform, memWrite_success ha, ht], ?_, by simpa using ho⟩
        have h1 : Ran [.W b] [.W b] 1 s (advance (setPort b (logEvent (.W b) (dropAnswer s)))) := by
          simp [Ran, portAfter]
        simpa [actionEvents, cutAtWrite, beforeWrite, Nat.add_comm] using h1.trans hr

/-- Write number `k` of the expansion is never answered: the events before it have happened, and it is outstanding. -/
theorem perform_silence (acts : List Action) (s : State) (k : Nat) (h : SilentAt k (actionEvents acts) s) :
    ∃ t, perform acts s = (.waiting, t)
      ∧ Ran (beforeWrite k (actionEvents acts)) (beforeWrite k (actionEvents acts)) (k + 1) s t
      ∧ t.adapter.outstanding = (payloads (actionEvents acts))[k]? := by
  induction acts generalizing s k with
  | nil => exact absurd h.1 (by simp [actionEvents])
  | cons a as ih =>
    cases a with
    | current v rs => exact ih (setCurrent v rs s) k h
    | nib x => exact ih (setNib x s) k h
    | delay d =>
      have hd := delayFor_ran d s
      obtain ⟨h1, h2, h3⟩ := h
      have hs : SilentAt k (actionEvents as) (delayFor d s) := by
        refine ⟨by simpa [actionEvents] using h1, ?_, ?_⟩
        · simpa [TransportSucceeds, hd.1.2.2.2.2.2.2] using h2
        · simpa [hd.1.2.2.2.2.2.2] using h3
      obtain ⟨t, ht, hr, ho⟩ := ih _ k hs
      refine ⟨t, ht, ?_, ?_⟩
      · have := hd.1.trans hr
        rw [Nat.zero_add] at this
        unfold idle at this
        by_cases h0 : d = 0
        · simpa [h0, actionEvents, idle] using this
        · simpa [h0, actionEvents, idle, beforeWrite] using this
      · simpa [actionEvents] using ho
    | write b =>
      obtain ⟨h1, h2, h3⟩ := h
      cases k with
      | zero =>
        cases ha : s.env.answers with
        | nil =>
          refine ⟨setOutstanding b s, by simp [perform, memWrite, ha], ?_, by simp [actionEvents]⟩
          have : s.env.answers.tail = s.env.answers := by rw [ha]; rfl
          simp [Ran, actionEvents, beforeWrite, portAfter, this]
        | cons x xs =>
          obtain rfl : x = .silence := by simpa [ha] using h3
          refine ⟨setOutstanding b (dropAnswer s), by simp [perform, memWrite, ha], ?_, by simp [actionEvents]⟩
          simp [Ran, actionEvents, beforeWrite, portAfter]
      | succ k =>
        obtain ⟨ans, ha, hn⟩ := transportSucceeds_succ h2
        obtain ⟨t, ht, hr, ho⟩ := ih (advance (setPort b (logEvent (.W b) (dropAnswer s)))) k
          ⟨by simpa [actionEvents] using h1, by simpa [TransportSucceeds, ha] using hn, by simpa [ha] using h3⟩
        refine ⟨t, by simp [perform, memWrite_success ha, ht], ?_, by simpa [actionEvents] using ho⟩
        have h1 : Ran [.W b] [.W b] 1 s (advance (setPort b (logEvent (.W b) (dropAnswer s)))) := by
          simp [Ran, portAfter]
        simpa [actionEvents, beforeWrite, Nat.add_comm] using h1.trans hr

/-- The transport answers the next `n` writes with success, or some one of them otherwise. -/
theorem answers_cases (n : Nat) (s : State) :
    TransportSucceeds n s
      ∨ ∃ k, k < n ∧ TransportSucceeds k s
          ∧ (s.env.answers[k]? = some .failure ∨ s.env.answers[k]? = some .silence ∨ s.env.answers[k]? = none) := by
  unfold TransportSucceeds
  generalize s.env.answers = l
  induction n generalizing l with
  | zero => left; simp
  | succ n ih =>
    cases l with
    | nil => right; exact ⟨0, by simp⟩
    | cons a as =>
      cases a with
      | success =>
        rcases ih as with h | ⟨k, hk, hs, hc⟩
        · left; simp [List.replicate_succ, h]
        · right; exact ⟨k + 1, by omega, by simp [List.replicate_succ, hs], by simpa using hc⟩
      | failure => right; exact ⟨0, by simp⟩
      | silence => right; exact ⟨0, by simp⟩

/-- A list of events runs to its end, or one of its writes fails, or one is never answered. -/
theorem run_cases (evs : List Event) (s : State) :
    TransportSucceeds (writeCount evs) s ∨ (∃ k, FailsAt k evs s) ∨ ∃ k, SilentAt k evs s := by
  rcases answers_cases (writeCount evs) s with h | ⟨k, hk, hs, hf | hn⟩
  · exact .inl h
  · exact .inr (.inl ⟨k, hk, hs, hf⟩)
  · exact .inr (.inr ⟨k, hk, hs, hn⟩)

/-! ## A whole transmission -/

/-- Every write succeeds: the operation commits and returns OK. -/
theorem transmit_success (acts : List Action) (commit : State → State) (s : State)
    (h : TransportSucceeds (writeCount (actionEvents acts)) s) :
    ∃ t, transmit acts commit s = returnStatus .ok (commit t)
      ∧ Ran (actionEvents acts) (actionEvents acts) (writeCount (actionEvents acts)) (setSeq 0 s) t
      ∧ t.adapter.outstanding = s.adapter.outstanding := by
  obtain ⟨t, ht, hr, ho⟩ := perform_success acts (setSeq 0 s) (by simpa [TransportSucceeds] using h)
  exact ⟨t, by simp [transmit, conclude, ht], hr, by simpa using ho⟩

/-- A write fails: nothing is committed and TransportError is raised. -/
theorem transmit_failure (acts : List Action) (commit : State → State) (s : State) (k : Nat)
    (h : FailsAt k (actionEvents acts) s) :
    Faults k (actionEvents acts) s.adapter.ds s (transmit acts commit s) := by
  obtain ⟨t, ht, hr, ho⟩ := perform_failure acts (setSeq 0 s) k (by simpa [FailsAt, TransportSucceeds] using h)
  obtain ⟨a1, a2, a3, a4, a5, a6, a7⟩ := hr
  simp only [setSeq_adapter, setSeq_env, setSeq_cfg, setSeq_port, Nat.zero_add] at a1 a2 a3 a4 a5 a6 a7 ho
  simp [Faults, transmit, conclude, ht, raise, a1, a3, a4, a7, ho]
  exact a5

/-- A write is never answered: nothing is committed and no status is returned. -/
theorem transmit_silence (acts : List Action) (commit : State → State) (s : State) (k : Nat)
    (h : SilentAt k (actionEvents acts) s) :
    Hangs k (actionEvents acts) s.adapter.ds s (transmit acts commit s) := by
  obtain ⟨t, ht, hr, ho⟩ := perform_silence acts (setSeq 0 s) k (by simpa [SilentAt, TransportSucceeds] using h)
  obtain ⟨a1, a2, a3, a4, a5, a6, a7⟩ := hr
  simp only [setSeq_adapter, setSeq_env, setSeq_cfg, setSeq_port, Nat.zero_add] at a1 a2 a3 a4 a5 a6 a7
  simp [Hangs, transmit, conclude, ht, a1, a2, a3, a4, a6, a7, ho]
  exact a5

/-- A transmission with nothing to commit completes. -/
theorem transmit_completes (acts : List Action) (s : State)
    (h : TransportSucceeds (writeCount (actionEvents acts)) s) :
    Completes (actionEvents acts) s.adapter.mode s.adapter.ds s (transmit acts id s) := by
  obtain ⟨t, ht, ⟨a1, a2, a3, a4, a5, a6, a7⟩, ho⟩ := transmit_success acts id s h
  simp only [setSeq_adapter, setSeq_env, setSeq_cfg, setSeq_port, Nat.zero_add] at a1 a2 a3 a4 a5 a6 a7
  simp [Completes, ht, a1, a2, a3, a4, a6, a7, ho]
  exact a5

/-- A transmission that commits a change of `DS` completes. -/
theorem transmit_commit_completes (acts : List Action) (f : DisplayState → DisplayState) (s : State)
    (h : TransportSucceeds (writeCount (actionEvents acts)) s) :
    Completes (actionEvents acts) s.adapter.mode (f s.adapter.ds) s (transmit acts (updateDs f) s) := by
  obtain ⟨t, ht, ⟨a1, a2, a3, a4, a5, a6, a7⟩, ho⟩ := transmit_success acts (updateDs f) s h
  simp only [setSeq_adapter, setSeq_env, setSeq_cfg, setSeq_port, Nat.zero_add] at a1 a2 a3 a4 a5 a6 a7
  simp [Completes, ht, a1, a2, a3, a4, a6, a7, ho]
  exact a5

/-! ## The mode check -/

/-- In Ready the check passes (R140). -/
theorem requireReady_ready {s : State} (body : State → State) (h : s.adapter.mode = .ready) :
    requireReady body s = body s := by
  simp [requireReady, h]

/-- Outside Ready the operation returns NotInitializedError (R140). -/
theorem requireReady_notReady {s : State} (body : State → State) (h : s.adapter.mode ≠ .ready) :
    requireReady body s = returnStatus .notInitializedError s := by
  unfold requireReady
  split <;> simp_all [raise]

end Sys2Proof.Machine
end

