-- ==== Sys2Proof/Laws/Exec.lean ====
section
/-! SUPPORT. Once, everything an instruction can do: it is refused by one of the checks of R195, or it transmits the
event list of its rule and ends in one of the three ways `transmit` ends. Statements about all instructions cite this
instead of unfolding the meanings. -/

namespace Sys2Proof.Machine

/-- The expansion an instruction transmits. -/
def instrActions (i : Instr) (s : State) : List Action :=
  let c := s.cfg
  let d := s.adapter.ds
  match i with
  | .init => initActions c d.bl
  | .cmd cmd => commandActions c d.bl cmd
  | .data value => dataActions c d.bl value
  | .clear => commandActions c d.bl c.lcdi.clear
  | .home => commandActions c d.bl c.lcdi.home
  | .setcur row column => commandActions c d.bl (setDdram c (ddramAddress c row.toNat column.toNat))
  | .wrchar byte => dataActions c d.bl byte
  | .dispvis v => commandActions c d.bl (dispCtl c v d.cur d.blink)
  | .curvis v => commandActions c d.bl (dispCtl c d.disp v d.blink)
  | .curblink v => commandActions c d.bl (dispCtl c d.disp d.cur v)
  | .backlight on => backlightActions c on
  | .glyph index rows => glyphActions c d.bl index rows
  | .reservedC _ => []
  | .reservedD _ => []
  | .reservedE _ => []
  | .reservedF _ => []
  | .lcdClear => commandActions c d.bl lcdClearByte
  | .lcdHome x => commandActions c d.bl (lcdHomeByte x)
  | .lcdEntrymode inc shift => commandActions c d.bl (lcdEntrymodeByte inc shift)
  | .lcdDispctl disp cur blink => commandActions c d.bl (lcdDispctlByte disp cur blink)
  | .lcdShift sc rl x => commandActions c d.bl (lcdShiftByte sc rl x)
  | .lcdFuncset dl n f x => commandActions c d.bl (lcdFuncsetByte dl n f x)
  | .lcdSetcgram addr => commandActions c d.bl (lcdSetcgramByte addr)
  | .lcdSetddram addr => commandActions c d.bl (lcdSetddramByte addr)
  | .lcdNone => commandActions c d.bl lcdNoneByte
  | .portbyte nib bl en rs => [.write (portByte c nib rs bl en)]

/-- `DS` after the instruction returns OK. -/
def dsOnOk (i : Instr) (d : DisplayState) : DisplayState :=
  match i with
  | .init => dsAfterInit d
  | .dispvis v => dsWithDisp v d
  | .curvis v => dsWithCur v d
  | .curblink v => dsWithBlink v d
  | .backlight on => dsWithBl on d
  | _ => d

/-- `MODE` after the instruction returns OK. -/
def modeOnOk (i : Instr) (m : Mode) : Mode :=
  match i with
  | .init => .ready
  | _ => m

/-- The expansion's events are the event list of the instruction's rule. -/
theorem actionEvents_instrActions (i : Instr) (s : State) : actionEvents (instrActions i s) = expansion i s := by
  cases i <;> simp [instrActions, expansion, actionEvents]

theorem noFailure_expansion (i : Instr) (s : State) : NoFailure (expansion i s) := by
  rw [← actionEvents_instrActions]; exact noFailure_actionEvents _

/-- An instruction whose checks pass transmits its expansion. -/
theorem exec_executes (i : Instr) (s : State) (h : Executes i s) :
    ∃ commit, exec i s = .next (transmit (instrActions i s) commit (updateDs (dsDuring i) s))
      ∧ ∀ t, t.adapter.ds = dsDuring i s.adapter.ds → t.adapter.mode = s.adapter.mode →
          commit t = setMode (modeOnOk i s.adapter.mode) (updateDs (fun _ => dsOnOk i s.adapter.ds) t) := by
  obtain ⟨h1, h2, h3⟩ := h
  have send : ∀ (cmd : Byte) (f : State → State), s.adapter.mode = .ready →
      sendCommand cmd f s = transmit (commandActions s.cfg s.adapter.ds.bl cmd) f s :=
    fun cmd f hr => by rw [sendCommand, requireReady_ready _ hr]; rfl
  have data : ∀ v : Byte, s.adapter.mode = .ready →
      sendData v s = transmit (dataActions s.cfg s.adapter.ds.bl v) id s :=
    fun v hr => by rw [sendData, requireReady_ready _ hr]
  have same : ∀ t : State, t.adapter.ds = s.adapter.ds → t.adapter.mode = s.adapter.mode →
      id t = setMode s.adapter.mode (updateDs (fun _ => s.adapter.ds) t) := by
    intro t hd hm; simp [setMode, updateDs, ← hd, ← hm]
  cases i
  case init =>
    exact ⟨_, rfl, fun t hd hm => by
      simp only [dsDuring] at hd; simp [setMode, updateDs, modeOnOk, dsOnOk, hd]⟩
  case cmd => exact ⟨id, by simp only [exec, execCmd, send _ _ (h2 rfl)]; rfl, same⟩
  case data => exact ⟨id, by simp only [exec, execData, data _ (h2 rfl)]; rfl, same⟩
  case clear => exact ⟨id, by simp only [exec, execClear, send _ _ (h2 rfl)]; rfl, same⟩
  case home => exact ⟨id, by simp only [exec, execHome, send _ _ (h2 rfl)]; rfl, same⟩
  case setcur row column =>
    simp only [argumentsOk, Bool.and_eq_true, decide_eq_true_eq] at h3
    refine ⟨id, ?_, same⟩
    simp only [exec, execSetcur, requireReady_ready _ (h2 rfl), Nat.not_le.2 h3.1, Nat.not_le.2 h3.2, if_false]
    rfl
  case wrchar => exact ⟨id, by simp only [exec, execWrchar, data _ (h2 rfl)]; rfl, same⟩
  case dispvis v =>
    exact ⟨_, by simp only [exec, execDispvis, send _ _ (h2 rfl)]; rfl, fun t hd hm => by
      simp only [dsDuring] at hd; simp [setMode, updateDs, modeOnOk, dsOnOk, hd, ← hm]⟩
  case curvis v =>
    exact ⟨_, by simp only [exec, execCurvis, send _ _ (h2 rfl)]; rfl, fun t hd hm => by
      simp only [dsDuring] at hd; simp [setMode, updateDs, modeOnOk, dsOnOk, hd, ← hm]⟩
  case curblink v =>
    exact ⟨_, by simp only [exec, execCurblink, send _ _ (h2 rfl)]; rfl, fun t hd hm => by
      simp only [dsDuring] at hd; simp [setMode, updateDs, modeOnOk, dsOnOk, hd, ← hm]⟩
  case backlight on =>
    exact ⟨id, by simp only [exec, execBacklight, requireReady_ready _ (h2 rfl)]; rfl, fun t hd hm => by
      simp only [dsDuring] at hd; simp [setMode, updateDs, modeOnOk, dsOnOk, ← hd, ← hm]⟩
  case glyph index rows =>
    simp only [argumentsOk, decide_eq_true_eq] at h3
    refine ⟨id, ?_, same⟩
    simp only [exec, execGlyph, requireReady_ready _ (h2 rfl), Nat.not_lt.2 h3, if_false]
    rfl
  case reservedC => simp [isReserved] at h1
  case reservedD => simp [isReserved] at h1
  case reservedE => simp [isReserved] at h1
  case reservedF => simp [isReserved] at h1
  case lcdClear => exact ⟨id, by simp only [exec, execLcdClear, send _ _ (h2 rfl)]; rfl, same⟩
  case lcdHome => exact ⟨id, by simp only [exec, execLcdHome, send _ _ (h2 rfl)]; rfl, same⟩
  case lcdEntrymode => exact ⟨id, by simp only [exec, execLcdEntrymode, send _ _ (h2 rfl)]; rfl, same⟩
  case lcdDispctl => exact ⟨id, by simp only [exec, execLcdDispctl, send _ _ (h2 rfl)]; rfl, same⟩
  case lcdShift => exact ⟨id, by simp only [exec, execLcdShift, send _ _ (h2 rfl)]; rfl, same⟩
  case lcdFuncset => exact ⟨id, by simp only [exec, execLcdFuncset, send _ _ (h2 rfl)]; rfl, same⟩
  case lcdSetcgram => exact ⟨id, by simp only [exec, execLcdSetcgram, send _ _ (h2 rfl)]; rfl, same⟩
  case lcdSetddram => exact ⟨id, by simp only [exec, execLcdSetddram, send _ _ (h2 rfl)]; rfl, same⟩
  case lcdNone => exact ⟨id, by simp only [exec, execLcdNone, send _ _ (h2 rfl)]; rfl, same⟩
  case portbyte => exact ⟨id, rfl, same⟩

/-- A reserved code is refused (R88). -/
theorem exec_reserved (i : Instr) (s : State) (h : isReserved i = true) :
    exec i s = .next (returnStatus .invalidArgument s) := by
  cases i <;> first | rfl | cases h

/-- Outside Ready an operation is refused (R140). -/
theorem exec_notReady (i : Instr) (s : State) (hn : needsReady i = true) (hm : s.adapter.mode ≠ .ready) :
    exec i s = .next (returnStatus .notInitializedError s) := by
  cases i <;> first
    | cases hn; done
    | simp only [exec, execCmd, execData, execClear, execHome, execSetcur, execWrchar, execDispvis, execCurvis,
        execCurblink, execBacklight, execGlyph, execLcdClear, execLcdHome, execLcdEntrymode, execLcdDispctl, execLcdShift,
        execLcdFuncset, execLcdSetcgram, execLcdSetddram, execLcdNone, sendCommand, sendData, requireReady_notReady _ hm]

/-- In Ready an operand out of its range is refused (R163, R170). -/
theorem exec_badArgument (i : Instr) (s : State) (hm : s.adapter.mode = .ready) (ha : argumentsOk s.cfg i = false) :
    exec i s = .next (returnStatus .invalidArgument s) := by
  cases i
  case setcur row column =>
    simp only [exec, execSetcur, requireReady_ready _ hm]
    simp only [argumentsOk, Bool.and_eq_false_iff, decide_eq_false_iff_not, Nat.not_lt] at ha
    rcases ha with h | h
    · simp [h, raise]
    · simp [h, raise]
  case glyph index rows =>
    simp only [exec, execGlyph, requireReady_ready _ hm]
    simp only [argumentsOk, decide_eq_false_iff_not, Nat.not_le] at ha
    simp [ha, raise]
  all_goals cases ha

/-- Every instruction is refused by a check, or executes (R195). -/
theorem checks_cases (i : Instr) (s : State) :
    isReserved i = true ∨ (needsReady i = true ∧ s.adapter.mode ≠ .ready)
      ∨ (isReserved i = false ∧ s.adapter.mode = .ready ∧ argumentsOk s.cfg i = false) ∨ Executes i s := by
  by_cases h1 : isReserved i = true
  · exact .inl h1
  · by_cases h2 : needsReady i = true
    · by_cases h3 : s.adapter.mode = .ready
      · by_cases h4 : argumentsOk s.cfg i = true
        · exact .inr (.inr (.inr ⟨by simpa using h1, fun _ => h3, h4⟩))
        · exact .inr (.inr (.inl ⟨by simpa using h1, h3, by simpa using h4⟩))
      · exact .inr (.inl ⟨h2, h3⟩)
    · refine .inr (.inr (.inr ⟨by simpa using h1, fun h => absurd h h2, ?_⟩))
      cases i <;> first | rfl | exact absurd rfl h2

/-- An instruction that executes ends in one of three ways: it completes, it faults at a failed write, or it hangs at a
write that is never answered. -/
theorem exec_cases (i : Instr) (s : State) (h : Executes i s) :
    ∃ t, exec i s = .next t
      ∧ ((TransportSucceeds (writeCount (expansion i s)) s
            ∧ Completes (expansion i s) (modeOnOk i s.adapter.mode) (dsOnOk i s.adapter.ds) s t)
        ∨ (∃ k, FailsAt k (expansion i s) s ∧ Faults k (expansion i s) (dsDuring i s.adapter.ds) s t)
        ∨ ∃ k, SilentAt k (expansion i s) s ∧ Hangs k (expansion i s) (dsDuring i s.adapter.ds) s t) := by
  obtain ⟨commit, he, hc⟩ := exec_executes i s h
  refine ⟨_, he, ?_⟩
  rcases run_cases (expansion i s) s with hs | ⟨k, hf⟩ | ⟨k, hf⟩
  · refine .inl ⟨hs, ?_⟩
    obtain ⟨t, ht, ⟨a1, a2, a3, a4, a5, a6, a7⟩, ho⟩ :=
      transmit_success (instrActions i s) commit (updateDs (dsDuring i) s)
        (by rw [actionEvents_instrActions]; exact hs)
    rw [ht, hc t (by simpa using a3) (by simpa using a2)]
    simp only [actionEvents_instrActions, setSeq_adapter, setSeq_env, setSeq_cfg, setSeq_port, updateDs_adapter,
      updateDs_env, updateDs_cfg, updateDs_port, Nat.zero_add] at a1 a2 a3 a4 a5 a6 a7 ho
    simp [Completes, a1, a4, a6, a7, ho]
    exact a5
  · refine .inr (.inl ⟨k, hf, ?_⟩)
    have := transmit_failure (instrActions i s) commit (updateDs (dsDuring i) s) k
      (by rw [actionEvents_instrActions]; exact hf)
    rw [actionEvents_instrActions] at this
    exact this
  · refine .inr (.inr ⟨k, hf, ?_⟩)
    have := transmit_silence (instrActions i s) commit (updateDs (dsDuring i) s) k
      (by rw [actionEvents_instrActions]; exact hf)
    rw [actionEvents_instrActions] at this
    exact this

/-- The three premises on the answers exclude each other, so each decides how the instruction ends. -/
theorem not_fails_of_succeeds {evs : List Event} {s : State} {k : Nat}
    (h : TransportSucceeds (writeCount evs) s) (hk : k < writeCount evs) : s.env.answers[k]? = some .success := by
  have := congrArg (fun l : List Answer => l[k]?) h
  simpa [List.getElem?_take, hk, List.getElem?_replicate] using this

end Sys2Proof.Machine
end

