-- ==== Sys2Proof/Laws/Operands.lean ====
section
/-! SUPPORT. The lines of a port byte: one role's bit at its position, the masks of R7, and setting and clearing Enable. -/

namespace Sys2Proof.Machine

theorem pos_lt (c : Config) (r : Role) : pos c r < 8 := by cases r <;> simp [pos]

/-- In a well-formed configuration distinct roles have distinct positions (R6 (a)). -/
theorem pos_inj {c : Config} (h : configWf c = true) (r r' : Role) : pos c r = pos c r' ↔ r = r' := by
  have h1 : pinsWf c = true := by simp only [configWf, Bool.and_eq_true] at h; exact h.1.1.1
  simp only [pinsWf, decide_eq_true_eq, List.nodup_cons, List.mem_cons, List.not_mem_nil, not_or, or_false] at h1
  constructor
  · intro e
    cases r <;> cases r' <;> first | rfl | (exfalso; simp_all)
  · rintro rfl; rfl

/-- One bit shifted to a position is read there and nowhere else. -/
theorem getLsbD_bit (v : Bool) (p q : Nat) (hp : p < 8) (hq : q < 8) :
    (((BitVec.ofBool v).setWidth 8 : Byte) <<< p).getLsbD q = (decide (q = p) && v) := by
  revert v; interval_cases p <;> interval_cases q <;> decide

/-- The line of role `r` carries role `r'`'s bit when they are one role, else 0 (R82). -/
theorem lineLevel_atRole {c : Config} (h : configWf c = true) (r r' : Role) (v : Bool) :
    lineLevel c (atRole c r' v) r = (decide (r = r') && v) := by
  simp only [lineLevel, atRole, getLsbD_bit v _ _ (pos_lt c r') (pos_lt c r), pos_inj h]

theorem lineLevel_or (c : Config) (a b : Byte) (r : Role) :
    lineLevel c (a ||| b) r = (lineLevel c a r || lineLevel c b r) := by
  simp [lineLevel]

/-- A role's mask has its position's bit and no other (R7). -/
theorem getLsbD_roleMask (c : Config) (r : Role) (q : Nat) (hq : q < 8) :
    (roleMask c r).getLsbD q = decide (q = pos c r) := by
  have := getLsbD_bit true (pos c r) q (pos_lt c r) hq
  simpa [roleMask] using this

/-- A byte is zero under a role's mask when the role's line is low. -/
theorem and_roleMask_eq_zero (c : Config) (r : Role) (b : Byte) : b &&& roleMask c r = 0 ↔ lineLevel c b r = false := by
  constructor
  · intro h
    have := congrArg (fun x : Byte => x.getLsbD (pos c r)) h
    simpa [getLsbD_roleMask _ _ _ (pos_lt c r), lineLevel] using this
  · intro h
    apply BitVec.eq_of_getLsbD_eq
    intro i hi
    rw [BitVec.getLsbD_and, getLsbD_roleMask _ _ _ hi]
    by_cases e : i = pos c r
    · subst e; simp only [lineLevel] at h; simp [h]
    · simp [e]

/-- Raising Enable raises its line and leaves every other (R112). -/
theorem lineLevel_or_enableMask {c : Config} (h : configWf c = true) (x : Byte) (r : Role) :
    lineLevel c (x ||| enableMask c) r = if r = .en then true else lineLevel c x r := by
  simp only [lineLevel, BitVec.getLsbD_or, enableMask, getLsbD_roleMask _ _ _ (pos_lt c r), pos_inj h]
  split <;> simp_all

/-- Raising and lowering Enable gives back a byte whose Enable is low (R116 (d)). -/
theorem or_and_not_enableMask (c : Config) (x : Byte) (h : lineLevel c x .en = false) :
    (x ||| enableMask c) &&& ~~~(enableMask c) = x := by
  apply BitVec.eq_of_getLsbD_eq
  intro i hi
  simp only [enableMask, BitVec.getLsbD_and, BitVec.getLsbD_or, BitVec.getLsbD_not, getLsbD_roleMask _ _ _ hi, hi]
  by_cases e : i = pos c .en
  · subst e; simp only [lineLevel] at h; simp [h]
  · simp [e]

/-- Lowering and raising Enable gives back a byte whose Enable is high. -/
theorem and_not_or_enableMask (c : Config) (b : Byte) (h : lineLevel c b .en = true) :
    (b &&& ~~~(enableMask c)) ||| enableMask c = b := by
  apply BitVec.eq_of_getLsbD_eq
  intro i hi
  simp only [enableMask, BitVec.getLsbD_and, BitVec.getLsbD_or, BitVec.getLsbD_not, getLsbD_roleMask _ _ _ hi, hi]
  by_cases e : i = pos c .en
  · subst e; simp only [lineLevel] at h; simp [h]
  · simp [e]

end Sys2Proof.Machine
end

