-- ==== Sys2Proof/Laws/PerInstr.lean ====
section
/-! SUPPORT. Per instruction, as syntax: the word the encoder writes matches the row of spec/opcode_table.json that the
instruction stands for, its `match` under its `mask`. -/

namespace Sys2Proof.Laws.Encoding

/-- A host word that equals `pattern` under `mask`. -/
def HostRow (mask pattern : HostWord) : Code → Bool
  | .host w => w &&& mask == pattern
  | .lcd _ => false
  | .port _ => false

/-- An LCD instruction byte that equals `pattern` under `mask`. -/
def LcdRow (mask pattern : Byte) : Code → Bool
  | .host _ => false
  | .lcd c => c &&& mask == pattern
  | .port _ => false

/-- A port byte that equals `pattern` under `mask`. -/
def PortRow (mask pattern : Byte) : Code → Bool
  | .host _ => false
  | .lcd _ => false
  | .port b => b &&& mask == pattern

/-- The row of spec/opcode_table.json an instruction stands for. -/
def Row (i : Instr) : Code → Bool :=
  match i with
  | .init => HostRow 0xFFFFFFFFFFFFFFFFFFFF 0x00000000000000000000
  | .cmd _ => HostRow 0xFF00FFFFFFFFFFFFFFFF 0x10000000000000000000
  | .data _ => HostRow 0xFF00FFFFFFFFFFFFFFFF 0x20000000000000000000
  | .clear => HostRow 0xFFFFFFFFFFFFFFFFFFFF 0x30000000000000000000
  | .home => HostRow 0xFFFFFFFFFFFFFFFFFFFF 0x40000000000000000000
  | .setcur _ _ => HostRow 0xF000FFFFFFFFFFFFFFFF 0x50000000000000000000
  | .wrchar _ => HostRow 0xFF00FFFFFFFFFFFFFFFF 0x60000000000000000000
  | .dispvis _ => HostRow 0xFFFEFFFFFFFFFFFFFFFF 0x70000000000000000000
  | .curvis _ => HostRow 0xFFFEFFFFFFFFFFFFFFFF 0x80000000000000000000
  | .curblink _ => HostRow 0xFFFEFFFFFFFFFFFFFFFF 0x90000000000000000000
  | .backlight _ => HostRow 0xFFFEFFFFFFFFFFFFFFFF 0xA0000000000000000000
  | .glyph _ _ => HostRow 0xF0FF0000000000000000 0xB0000000000000000000
  | .reservedC _ => HostRow 0xF0000000000000000000 0xC0000000000000000000
  | .reservedD _ => HostRow 0xF0000000000000000000 0xD0000000000000000000
  | .reservedE _ => HostRow 0xF0000000000000000000 0xE0000000000000000000
  | .reservedF _ => HostRow 0xF0000000000000000000 0xF0000000000000000000
  | .lcdClear => LcdRow 0xFF 0x01
  | .lcdHome _ => LcdRow 0xFE 0x02
  | .lcdEntrymode _ _ => LcdRow 0xFC 0x04
  | .lcdDispctl _ _ _ => LcdRow 0xF8 0x08
  | .lcdShift _ _ _ => LcdRow 0xF0 0x10
  | .lcdFuncset _ _ _ _ => LcdRow 0xE0 0x20
  | .lcdSetcgram _ => LcdRow 0xC0 0x40
  | .lcdSetddram _ => LcdRow 0x80 0x80
  | .lcdNone => LcdRow 0xFF 0x00
  | .portbyte _ _ _ _ => PortRow 0x02 0x00

/-- A well-formed instruction's word matches its row. -/
def Statement (i : Instr) : Prop := i.wf = true → Row i (encode i) = true

/-- The whole of field `op` is under every row's mask. -/
theorem opMask (op : BitVec 4) : op &&& 0xF = op := by revert op; decide

/-- A word of fields matches a row of fields when each of its fields does. -/
theorem hostRow_fields {op a op' a' op'' a'' : BitVec 4} {b b' b'' : Byte} {pl pl' pl'' : BitVec 64}
    {mask pattern : HostWord} (hm : mask = hostWord op' a' b' pl') (hp : pattern = hostWord op'' a'' b'' pl'')
    (h1 : op &&& op' = op'') (h2 : a &&& a' = a'') (h3 : b &&& b' = b'') (h4 : pl &&& pl' = pl'') :
    HostRow mask pattern (.host (hostWord op a b pl)) = true := by
  subst hm hp h1 h2 h3 h4
  exact beq_iff_eq.2 (hostWord_and op op' a a' b b' pl pl')

theorem byteRow (op : BitVec 4) (b : Byte) {pattern : HostWord} (hp : pattern = hostWord op 0 0 0) :
    HostRow 0xFF00FFFFFFFFFFFFFFFF pattern (.host (byteWord op b)) = true :=
  hostRow_fields (op' := 0xF) (a' := 0xF) (b' := 0) (pl' := 0xFFFFFFFFFFFFFFFF) (by decide) hp
    (opMask op) (by decide) (by simp) (by decide)

theorem boolRow (op : BitVec 4) (v : Bool) {pattern : HostWord} (hp : pattern = hostWord op 0 0 0) :
    HostRow 0xFFFEFFFFFFFFFFFFFFFF pattern (.host (boolWord op v)) = true :=
  hostRow_fields (op' := 0xF) (a' := 0xF) (b' := 0xFE) (pl' := 0xFFFFFFFFFFFFFFFF) (by decide) hp
    (opMask op) (by decide) (by revert v; decide) (by decide)

theorem reservedRow (op : BitVec 4) (rest : BitVec 76) {pattern : HostWord} (hp : pattern = hostWord op 0 0 0) :
    HostRow 0xF0000000000000000000 pattern (.host (reservedWord op rest)) = true := by
  have h : hostOp (reservedWord op rest) = op := hostOp_reservedWord op rest
  generalize reservedWord op rest = w at h ⊢
  rw [← hostWord_fields w, h]
  exact hostRow_fields (op' := 0xF) (a' := 0) (b' := 0) (pl' := 0) (by decide) hp (opMask op) (by simp)
    (by simp) (by simp)

theorem init : Statement .init := fun _ => by decide
theorem cmd (c : Byte) : Statement (.cmd c) := fun _ => byteRow 0x1 c (by decide)
theorem data (v : Byte) : Statement (.data v) := fun _ => byteRow 0x2 v (by decide)
theorem clear : Statement .clear := fun _ => by decide
theorem home : Statement .home := fun _ => by decide
theorem setcur (row : BitVec 4) (column : Byte) : Statement (.setcur row column) := fun _ =>
  hostRow_fields (op' := 0xF) (a' := 0) (b' := 0) (pl' := 0xFFFFFFFFFFFFFFFF) (op'' := 0x5) (a'' := 0) (b'' := 0)
    (pl'' := 0) (by decide) (by decide) (by decide) (by simp) (by simp) (by decide)
theorem wrchar (b : Byte) : Statement (.wrchar b) := fun _ => byteRow 0x6 b (by decide)
theorem dispvis (v : Bool) : Statement (.dispvis v) := fun _ => boolRow 0x7 v (by decide)
theorem curvis (v : Bool) : Statement (.curvis v) := fun _ => boolRow 0x8 v (by decide)
theorem curblink (v : Bool) : Statement (.curblink v) := fun _ => boolRow 0x9 v (by decide)
theorem backlight (on : Bool) : Statement (.backlight on) := fun _ => boolRow 0xA on (by decide)
theorem glyph (index : BitVec 4) (rows : List Byte) : Statement (.glyph index rows) := fun _ =>
  hostRow_fields (op' := 0xF) (a' := 0) (b' := 0xFF) (pl' := 0) (op'' := 0xB) (a'' := 0) (b'' := 0)
    (pl'' := 0) (by decide) (by decide) (by decide) (by simp) (by decide) (by simp)
theorem reservedC (rest : BitVec 76) : Statement (.reservedC rest) := fun _ => reservedRow 0xC rest (by decide)
theorem reservedD (rest : BitVec 76) : Statement (.reservedD rest) := fun _ => reservedRow 0xD rest (by decide)
theorem reservedE (rest : BitVec 76) : Statement (.reservedE rest) := fun _ => reservedRow 0xE rest (by decide)
theorem reservedF (rest : BitVec 76) : Statement (.reservedF rest) := fun _ => reservedRow 0xF rest (by decide)
theorem lcdClear : Statement .lcdClear := fun _ => by decide
theorem lcdHome (x : Bool) : Statement (.lcdHome x) := fun _ => by cases x <;> decide
theorem lcdEntrymode (inc shift : Bool) : Statement (.lcdEntrymode inc shift) := fun _ => by
  cases inc <;> cases shift <;> decide
theorem lcdDispctl (disp cur blink : Bool) : Statement (.lcdDispctl disp cur blink) := fun _ => by
  cases disp <;> cases cur <;> cases blink <;> decide
theorem lcdShift (sc rl : Bool) (x : BitVec 2) : Statement (.lcdShift sc rl x) := fun _ => by
  show (lcdShiftByte sc rl x &&& 0xF0 == 0x10) = true
  revert sc rl x; decide
theorem lcdFuncset (dl n f : Bool) (x : BitVec 2) : Statement (.lcdFuncset dl n f x) := fun _ => by
  show (lcdFuncsetByte dl n f x &&& 0xE0 == 0x20) = true
  revert dl n f x; decide
theorem lcdSetcgram (addr : BitVec 6) : Statement (.lcdSetcgram addr) := fun _ => by
  show (lcdSetcgramByte addr &&& 0xC0 == 0x40) = true
  revert addr; decide
theorem lcdSetddram (addr : BitVec 7) : Statement (.lcdSetddram addr) := fun _ => by
  show (lcdSetddramByte addr &&& 0x80 == 0x80) = true
  revert addr; decide
theorem lcdNone : Statement .lcdNone := fun _ => by decide
theorem portbyte (nib : Nibble) (bl en rs : Bool) : Statement (.portbyte nib bl en rs) := fun _ => by
  show (portbyteByte nib bl en rs &&& 0x02 == 0x00) = true
  revert nib bl en rs; decide

end Sys2Proof.Laws.Encoding
end

