-- ==== Sys2Proof/Laws/Step.lean ====
section
/-! SUPPORT. Once, everything a step can do: nothing, a reset, a refusal, or one instruction of the host that executes. -/

namespace Sys2Proof.Machine

/-- An instruction a host word can be: no LCD instruction byte and no port byte. -/
def isHostInstr (i : Instr) : Bool :=
  match i with
  | .init => true
  | .cmd _ => true
  | .data _ => true
  | .clear => true
  | .home => true
  | .setcur _ _ => true
  | .wrchar _ => true
  | .dispvis _ => true
  | .curvis _ => true
  | .curblink _ => true
  | .backlight _ => true
  | .glyph _ _ => true
  | .reservedC _ => true
  | .reservedD _ => true
  | .reservedE _ => true
  | .reservedF _ => true
  | .lcdClear => false
  | .lcdHome _ => false
  | .lcdEntrymode _ _ => false
  | .lcdDispctl _ _ _ => false
  | .lcdShift _ _ _ => false
  | .lcdFuncset _ _ _ _ => false
  | .lcdSetcgram _ => false
  | .lcdSetddram _ => false
  | .lcdNone => false
  | .portbyte _ _ _ _ => false

/-- A host word decodes to an instruction of the host (R85). -/
theorem isHostInstr_of_decode {w : HostWord} {i : Instr} (h : decode (.host w) = .ok i) : isHostInstr i = true := by
  simp only [decode, decodeHost] at h
  split at h <;> try simp only [noOperand, byteOperand, boolOperand, cursorOperand, glyphOperand] at h
  all_goals (repeat' split at h) <;> first | (injection h with h; subst h; rfl) | cases h

/-- A port that is not busy has no write outstanding. -/
theorem outstanding_of_not_busy {s : State} (h : ¬ busy s = true) : s.adapter.outstanding = none := by
  simpa [busy] using h

/-- What `fetch` finds at a ready port whose host presents a word. -/
theorem fetch_word {s : State} {w : HostWord} {rest : List Request} (ho : s.adapter.outstanding = none)
    (hr : s.env.requests = .word w :: rest) :
    fetch s = match decode (.host w) with | .ok i => .run i | .error _ => .illegal := by
  simp only [fetch, busy, ho, hr, Option.isSome_none, Bool.false_eq_true, if_false] <;> rfl

/-- What `fetch` finds at a ready port whose host presents a word and asserts reset during its operation. -/
theorem fetch_wordThenReset {s : State} {w : HostWord} {n : Nat} {rest : List Request}
    (ho : s.adapter.outstanding = none) (hr : s.env.requests = .wordThenReset w n :: rest) :
    fetch s = match decode (.host w) with | .ok i => .runThenReset i n | .error _ => .illegalThenReset := by
  simp only [fetch, busy, ho, hr, Option.isSome_none, Bool.false_eq_true, if_false] <;> rfl

/-- What `fetch` finds at a busy port. -/
theorem fetch_busy {s : State} {b : Byte} (ho : s.adapter.outstanding = some b) :
    fetch s = if .reset ∈ s.env.requests then .reset else .nothing := by
  simp [fetch, busy, ho]

/-- What `fetch` has found when it finds an instruction: the port is ready and the host presents a word. -/
theorem fetch_run {s : State} {i : Instr} (h : fetch s = .run i) :
    s.adapter.outstanding = none ∧ ∃ w rest, s.env.requests = .word w :: rest ∧ decode (.host w) = .ok i := by
  unfold fetch at h
  split at h
  · split at h <;> cases h
  rename_i hb
  split at h
  · cases h
  · cases h
  · rename_i w rest hr
    split at h <;> cases h
    rename_i hd
    exact ⟨outstanding_of_not_busy hb, w, rest, hr, hd⟩
  · split at h <;> cases h

/-- What `fetch` has found when it finds an illegal word. -/
theorem fetch_illegal {s : State} (h : fetch s = .illegal) :
    s.adapter.outstanding = none ∧ ∃ w rest e, s.env.requests = .word w :: rest ∧ decode (.host w) = .error e := by
  unfold fetch at h
  split at h
  · split at h <;> cases h
  rename_i hb
  split at h
  · cases h
  · cases h
  · rename_i w rest hr
    split at h <;> cases h
    rename_i hd
    exact ⟨outstanding_of_not_busy hb, w, rest, _, hr, hd⟩
  · split at h <;> cases h

/-- Every instruction answers a next state, with the configuration and the host's requests as they were. -/
theorem exec_next (i : Instr) (s : State) :
    ∃ t, exec i s = .next t ∧ t.cfg = s.cfg ∧ t.env.requests = s.env.requests := by
  rcases checks_cases i s with h | ⟨h1, h2⟩ | ⟨-, h2, h3⟩ | h
  · exact ⟨_, exec_reserved i s h, rfl, rfl⟩
  · exact ⟨_, exec_notReady i s h1 h2, rfl, rfl⟩
  · exact ⟨_, exec_badArgument i s h2 h3, rfl, rfl⟩
  · obtain ⟨t, ht, ⟨-, h⟩ | ⟨k, -, h⟩ | ⟨k, -, h⟩⟩ := exec_cases i s h
    · exact ⟨t, ht, h.1, by rw [h.2.2.2.2.2.2.2]⟩
    · exact ⟨t, ht, h.1, by rw [h.2.2.2.2.2.2.2]⟩
    · exact ⟨t, ht, h.1, by rw [h.2.2.2.2.2.2.2]⟩

/-- An operation into which a reset falls ends in the state a reset leaves. -/
theorem execThenReset_next (i : Instr) (n : Nat) (s : State) :
    ∃ u, execThenReset i n s = .next (assertReset u) ∧ u.cfg = s.cfg ∧ u.env.requests = s.env.requests := by
  obtain ⟨t, ht, hc, hr⟩ := exec_next i s
  refine ⟨_, by rw [execThenReset, ht], ?_, ?_⟩
  · split <;> simp [hc]
  · split <;> simp [hr]

/-- Everything a step that answers a next state can do. -/
theorem step_cases {s t : State} (h : step s = .next t) :
    configWf s.cfg = true
      ∧ (t = s ∨ (∃ u, t = assertReset u ∧ u.cfg = s.cfg)
        ∨ (s.adapter.outstanding = none
          ∧ ((∃ st, t = returnStatus st (dropRequest s) ∧ (st = .invalidArgument ∨ st = .notInitializedError))
            ∨ ∃ i, isHostInstr i = true ∧ Executes i (dropRequest s) ∧ exec i (dropRequest s) = .next t))) := by
  unfold step at h
  split at h
  case isFalse => cases h
  rename_i hw
  refine ⟨hw, ?_⟩
  split at h
  · injection h with h; exact .inl h.symm
  · injection h with h; exact .inr (.inl ⟨_, h.symm, rfl⟩)
  · rename_i hf
    injection h with h
    exact .inr (.inr ⟨(fetch_illegal hf).1, .inl ⟨_, h.symm, .inl rfl⟩⟩)
  · rename_i i hf
    obtain ⟨ho, w, rest, -, hd⟩ := fetch_run hf
    refine .inr (.inr ⟨ho, ?_⟩)
    rcases checks_cases i (dropRequest s) with g | ⟨g1, g2⟩ | ⟨-, g2, g3⟩ | g
    · have e := exec_reserved i (dropRequest s) g
      rw [h] at e; injection e with e; exact .inl ⟨_, e, .inl rfl⟩
    · have e := exec_notReady i (dropRequest s) g1 g2
      rw [h] at e; injection e with e; exact .inl ⟨_, e, .inr rfl⟩
    · have e := exec_badArgument i (dropRequest s) g2 g3
      rw [h] at e; injection e with e; exact .inl ⟨_, e, .inl rfl⟩
    · exact .inr ⟨i, isHostInstr_of_decode hd, g, h⟩
  · injection h with h; exact .inr (.inl ⟨_, h.symm, rfl⟩)
  · rename_i i n _
    obtain ⟨u, hu, hc, -⟩ := execThenReset_next i n (dropRequest s)
    rw [hu] at h; injection h with h
    exact .inr (.inl ⟨u, h.symm, hc⟩)

end Sys2Proof.Machine
end

