-- ==== Sys2Proof/Tests/Slice0.lean ====
section
/-! SUPPORT. Tests against the spec's own vectors (V<n>, P<n> of spec/95_test_vectors.md) and words written out from its
encodings. -/

namespace Sys2Proof.Tests

open Sys2Proof.Machine

/-! ## Helpers -/

/-- The state after a successful INIT (spec/95_test_vectors.md part 2), with the given configuration, backlight and
transport answers. -/
def ready (c : Config) (bl : Bool) (answers : List Answer) : State where
  cfg := c
  adapter := {
    mode := .ready, ds := ⟨true, false, true, false, false, bl⟩, seq := 0, delay := 0, curb := 0, rssel := false,
    nib := 0, outstanding := none }
  port := 0x60
  env := { requests := [], answers := answers, draws := 1, trace := [], statuses := [] }

/-- The transport succeeds `n` times. -/
def yes (n : Nat) : List Answer := List.replicate n .success

/-- The state in another mode. -/
def inMode (m : Mode) (s : State) : State := setMode m s

/-- The state an outcome gives, if it is a next state. -/
def after (s : State) : Host.Outcome State Fault Refusal → State
  | .next t => t
  | .fault _ => s
  | .refused _ => s

/-- The trace after one instruction. -/
def traceOf (i : Instr) (s : State) : List Event := (after s (exec i s)).env.trace

/-- The payloads of the writes of one instruction. -/
def writesOf (i : Instr) (s : State) : List Byte := payloads (traceOf i s)

/-- The statuses after one instruction. -/
def statusesOf (i : Instr) (s : State) : List Status := (after s (exec i s)).env.statuses

/-- The default configuration with 20 columns and 4 rows (V8). -/
def wide : Config := { defaultConfig with rows := 4, cols := 20, rowBase := defaultRowBase 20 }

/-- The mapping of V17. -/
def contiguous : Config := { defaultConfig with pins := ⟨4, 5, 6, 7, 0, 1, 2, 3⟩ }

/-- The mapping of V18. -/
def scrambled : Config := { defaultConfig with pins := ⟨7, 0, 5, 2, 6, 1, 4, 3⟩ }

/-- The default configuration with BL_IMMEDIATE (V12). -/
def immediate : Config := { defaultConfig with blImmediate := true }

/-- The statuses after the host has presented WRSTR "AB" (R102). -/
def statusesAfterString (s : State) : Option (List Status) :=
  match step { s with env := { s.env with requests := wrstrRequests [0x41, 0x42] } } with
  | .next t => match step t with
    | .next u => some u.env.statuses
    | .fault _ => none
    | .refused _ => none
  | .fault _ => none
  | .refused _ => none

/-! ## The assembly syntax (R101, R102) -/

/-- The operands in D0's argument order, column before row. -/
theorem test_assembly_setcur : assembleLine "SETCUR 15, 1 ; last cell" = some [.setcur 1 15] := by decide

/-- A character stands for its ASCII code, 0x41. -/
theorem test_assembly_wrchar : assembleLine "WRCHAR 'A'" = some [.wrchar 0x41] := by decide

/-- R102: one WRCHAR for each character of a text, or for each byte. -/
theorem test_assembly_wrstr :
    assembleLine "WRSTR \"Hi\"" = some [.wrchar 0x48, .wrchar 0x69]
      ∧ assembleLine "WRSTR 0x48, 105" = some [.wrchar 0x48, .wrchar 0x69]
      ∧ assembleLine "WRSTR \"\"" = some []
      ∧ assembleLine "WRSTR \"A\\n\"" = some [.wrchar 0x41, .wrchar 0x0A] := by decide

theorem test_assembly_glyph :
    assembleLine "GLYPH 1, 0x00, 0x0A, 0x1F, 0x1F, 0x0E, 0x04, 0, 0" = some [.glyph 1 [0, 10, 31, 31, 14, 4, 0, 0]] := by
  decide

/-- A comment is no word; an operand that is no byte, and a text outside WRSTR, are refused. -/
theorem test_assembly_refused :
    assembleLine "; comment" = some [] ∧ assembleLine "CMD 256" = none ∧ assembleLine "CMD \"A\"" = none
      ∧ assembleLine "DISPVIS 2" = none := by decide

/-- R102: the first status that is not OK, or OK. -/
theorem test_wrstr_status :
    wrstrStatus [.ok, .transportError, .notInitializedError] = .transportError ∧ wrstrStatus [.ok, .ok] = .ok
      ∧ wrstrStatus [] = .ok := by decide

/-! ## WellFormed -/

/-- A glyph with seven rows is no instruction (R86). -/
theorem test_wf_refuses_seven_rows : Instr.wf (.glyph 0 [0, 0, 0, 0, 0, 0, 0]) = false := by decide

/-- A glyph with eight rows is one (R86). -/
theorem test_wf_accepts_eight_rows : Instr.wf (.glyph 0 [0, 0, 0, 0, 0, 0, 0, 0]) = true := by decide

/-- The default configuration is well-formed (R6). -/
theorem test_config_wf_default : configWf defaultConfig = true := by decide

/-- The mappings of V17 and V18 and the geometry of V8 are well-formed (R6). -/
theorem test_config_wf_variants :
    configWf contiguous = true ∧ configWf scrambled = true ∧ configWf wide = true := by decide

/-- R6 (a): two roles on one bit. -/
theorem test_config_refuses_shared_bit :
    configWf { defaultConfig with pins := ⟨0, 1, 2, 3, 4, 5, 6, 6⟩ } = false := by decide

/-- R6 (b): no rows, five rows, no columns, 41 columns. -/
theorem test_config_refuses_geometry :
    configWf { defaultConfig with rows := 0 } = false ∧ configWf { defaultConfig with rows := 5 } = false
      ∧ configWf { defaultConfig with cols := 0 } = false ∧ configWf { defaultConfig with cols := 41 } = false := by
  decide

/-- R6 (c): the last cell of row 1 would be 0x70 + 15 = 0x7F and then 0x80. -/
theorem test_config_rows_fit_seven_bits :
    configWf { defaultConfig with rowBase := ⟨0, 0x70, 0, 0⟩ } = true
      ∧ configWf { defaultConfig with rowBase := ⟨0, 0x71, 0, 0⟩ } = false := by decide

/-- R5: a tick of zero. -/
theorem test_config_refuses_zero_tick : configWf { defaultConfig with tickNs := 0 } = false := by decide

/-! ## Decoding: words of V20, and of R90 to R98 and R81 bit by bit -/

theorem test_decode_init : decode (.host 0x00000000000000000000) = .ok .init := by decide
theorem test_decode_cmd : decode (.host 0x10380000000000000000) = .ok (.cmd 0x38) := by decide
theorem test_decode_data : decode (.host 0x207E0000000000000000) = .ok (.data 0x7E) := by decide
theorem test_decode_clear : decode (.host 0x30000000000000000000) = .ok .clear := by decide
theorem test_decode_home : decode (.host 0x40000000000000000000) = .ok .home := by decide
theorem test_decode_setcur : decode (.host 0x51070000000000000000) = .ok (.setcur 1 7) := by decide
theorem test_decode_wrchar : decode (.host 0x60200000000000000000) = .ok (.wrchar 0x20) := by decide
theorem test_decode_dispvis : decode (.host 0x70010000000000000000) = .ok (.dispvis true) := by decide
theorem test_decode_curvis : decode (.host 0x80000000000000000000) = .ok (.curvis false) := by decide
theorem test_decode_curblink : decode (.host 0x90010000000000000000) = .ok (.curblink true) := by decide
theorem test_decode_backlight : decode (.host 0xA0010000000000000000) = .ok (.backlight true) := by decide
theorem test_decode_glyph : decode (.host 0xB30008090A0B0C0D0E0F) =
    .ok (.glyph 3 [0x0F, 0x0E, 0x0D, 0x0C, 0x0B, 0x0A, 0x09, 0x08]) := by decide
/-- R88: op = 1100 and 76 other bits. -/
theorem test_decode_reservedC : decode (.host 0xC0000000000000000001) = .ok (.reservedC 1) := by decide
theorem test_decode_reservedD : decode (.host 0xD0000000000000000000) = .ok (.reservedD 0) := by decide
theorem test_decode_reservedE : decode (.host 0xE0000000000000000000) = .ok (.reservedE 0) := by decide
theorem test_decode_reservedF : decode (.host 0xF8000000000000000000) = .ok (.reservedF (1 <<< 75)) := by decide
theorem test_decode_lcdClear : decode (.lcd 0b00000001) = .ok .lcdClear := by decide
theorem test_decode_lcdHome : decode (.lcd 0b00000011) = .ok (.lcdHome true) := by decide
theorem test_decode_lcdEntrymode : decode (.lcd 0b00000110) = .ok (.lcdEntrymode true false) := by decide
theorem test_decode_lcdDispctl : decode (.lcd 0b00001101) = .ok (.lcdDispctl true false true) := by decide
theorem test_decode_lcdShift : decode (.lcd 0b00011001) = .ok (.lcdShift true false 1) := by decide
theorem test_decode_lcdFuncset : decode (.lcd 0b00101000) = .ok (.lcdFuncset false true false 0) := by decide
theorem test_decode_lcdSetcgram : decode (.lcd 0b01001010) = .ok (.lcdSetcgram 0b001010) := by decide
theorem test_decode_lcdSetddram : decode (.lcd 0b11001111) = .ok (.lcdSetddram 0b1001111) := by decide
theorem test_decode_lcdNone : decode (.lcd 0b00000000) = .ok .lcdNone := by decide
/-- R81: d c b a = 0100, L = 0, E = 1, RW = 0, R = 1. -/
theorem test_decode_portbyte : decode (.port 0b01000101) = .ok (.portbyte 0x4 false true true) := by decide
/-- R83: RW set. -/
theorem test_decode_portbyte_rw : decode (.port 0b01000010) = .error .readWrite := by decide

/-- The encoder on the packed glyph word of V13, and on V20's SETCUR. -/
theorem test_encode_glyph_setcur :
    encode (.glyph 1 [0x00, 0x0A, 0x1F, 0x1F, 0x0E, 0x04, 0x00, 0x00]) = .host 0xB1000000040E1F1F0A00
      ∧ encode (.setcur 1 7) = .host 0x51070000000000000000 := by decide

/-- V15, V20: words with a must-be-zero field that is not zero. -/
theorem test_decode_illegal :
    decode (.host 0x00010000000000000000) = .error .fieldB
      ∧ decode (.host 0x01000000000000000000) = .error .fieldA
      ∧ decode (.host 0x11410000000000000000) = .error .fieldA
      ∧ decode (.host 0x30000000000000000001) = .error .payload
      ∧ decode (.host 0x70020000000000000000) = .error .boolean
      ∧ decode (.host 0x70FF0000000000000000) = .error .boolean
      ∧ decode (.host 0xB1010000000000000000) = .error .fieldB
      ∧ decode (.host 0x50000000000000000001) = .error .payload
      ∧ decode (.host 0x20410000000000000100) = .error .payload := by decide

/-- A table word is read with its own numbering: HW[79:76] is the top digit. -/
theorem test_table_word :
    decodeTableWord 80 0x51070000000000000000 = some (.setcur 1 7) ∧ decodeTableWord 8 0x80 = some (.lcdSetddram 0)
      ∧ decodeTableWord 16 0 = none := by decide

/-! ## Port bytes (V1) -/

theorem test_portByte_default :
    portByte defaultConfig 0x0 false false false = 0x00 ∧ portByte defaultConfig 0x0 false false true = 0x04
      ∧ portByte defaultConfig 0x0 true false false = 0x01 ∧ portByte defaultConfig 0x0 false true false = 0x08
      ∧ portByte defaultConfig 0xF true true true = 0xFD ∧ portByte defaultConfig 0x4 true false true = 0x45
      ∧ portByte defaultConfig 0x4 true true false = 0x49 ∧ portByte defaultConfig 0x1 false false false = 0x10
      ∧ portByte defaultConfig 0x8 false false false = 0x80 := by decide

/-! ## INIT -/

/-- V10: the first 20 events of initialize. -/
theorem test_init_handshake :
    (traceOf .init (inMode .uninitialized (ready defaultConfig false (yes 24)))).take 21 =
      [.D 15000000,
       .W 0x34, .D 1000, .W 0x30, .D 1000, .D 4100000,
       .W 0x34, .D 1000, .W 0x30, .D 1000, .D 100000,
       .W 0x34, .D 1000, .W 0x30, .D 1000, .D 100000,
       .W 0x24, .D 1000, .W 0x20, .D 1000, .D 100000] := by decide

/-- V10: the other events of initialize. -/
theorem test_init_commands :
    (traceOf .init (inMode .uninitialized (ready defaultConfig false (yes 24)))).drop 21 =
      [.W 0x24, .D 1000, .W 0x20, .D 1000, .W 0x84, .D 1000, .W 0x80, .D 1000, .D 40000,
       .W 0x04, .D 1000, .W 0x00, .D 1000, .W 0xC4, .D 1000, .W 0xC0, .D 1000, .D 40000,
       .W 0x04, .D 1000, .W 0x00, .D 1000, .W 0x14, .D 1000, .W 0x10, .D 1000, .D 1520000,
       .W 0x04, .D 1000, .W 0x00, .D 1000, .W 0x64, .D 1000, .W 0x60, .D 1000, .D 40000] := by decide

/-- V10: the end state of initialize. -/
theorem test_init_end :
    let t := after State.reset (exec .init (inMode .uninitialized (ready defaultConfig false (yes 24))))
    t.adapter.mode = .ready ∧ t.adapter.ds = ⟨true, false, true, false, false, false⟩ ∧ t.port = 0x60
      ∧ t.env.statuses = [.ok] ∧ t.env.answers = [] := by decide

/-- V11: initialize with the backlight on, one row and font 1 (writes 9 to 12 of `ROWS = 1, FONT = 1`, BL added). -/
theorem test_init_variant :
    ((writesOf .init (ready { defaultConfig with rows := 1, font := true } false (yes 24))).drop 8).take 4 =
        [0x24, 0x20, 0x44, 0x40]
      ∧ writesOf .init (ready defaultConfig true (yes 24)) =
        [0x3C, 0x38, 0x3C, 0x38, 0x3C, 0x38, 0x2C, 0x28, 0x2C, 0x28, 0x8C, 0x88, 0x0C, 0x08, 0xCC, 0xC8,
         0x0C, 0x08, 0x1C, 0x18, 0x0C, 0x08, 0x6C, 0x68] := by decide

/-- V11: with zero enable delays the events are gone. -/
theorem test_init_zero_enable_delay :
    (traceOf .init (ready { defaultConfig with times := { defaultTiming with enh := 0, enl := 0 } } false (yes 24))).take 7
      = [.D 15000000, .W 0x34, .W 0x30, .D 4100000, .W 0x34, .W 0x30, .D 100000] := by decide

/-- E7, V16: the third write of initialize fails. -/
theorem test_init_third_write_fails :
    let s := inMode .uninitialized (ready defaultConfig false [.success, .success, .failure])
    let t := after s (exec .init s)
    t.env.trace = [.D 15000000, .W 0x34, .D 1000, .W 0x30, .D 1000, .D 4100000, .X 0x34]
      ∧ t.adapter.mode = .faulted ∧ t.env.statuses = [.transportError] := by decide

/-- V17, V18: initialize under other mappings. -/
theorem test_init_other_mappings :
    writesOf .init (ready contiguous false (yes 24)) =
        [0x43, 0x03, 0x43, 0x03, 0x43, 0x03, 0x42, 0x02, 0x42, 0x02, 0x48, 0x08, 0x40, 0x00, 0x4C, 0x0C,
         0x40, 0x00, 0x41, 0x01, 0x40, 0x00, 0x46, 0x06]
      ∧ writesOf .init (ready scrambled false (yes 24)) =
        [0x62, 0x42, 0x62, 0x42, 0x62, 0x42, 0x22, 0x02, 0x22, 0x02, 0x28, 0x08, 0x20, 0x00, 0x38, 0x18,
         0x20, 0x00, 0x60, 0x40, 0x20, 0x00, 0x32, 0x12] := by decide

/-! ## CMD and DATA -/

/-- V6: CMD 0x03 is home with its ignored bit set, LONG. -/
theorem test_cmd_home_ignored_bit :
    traceOf (.cmd 0x03) (ready defaultConfig false (yes 4)) =
      [.W 0x04, .D 1000, .W 0x00, .D 1000, .W 0x34, .D 1000, .W 0x30, .D 1000, .D 1520000] := by decide

/-- V6: CMD 0x30 with the backlight on is transmitted, MODE stays Ready and DS is not written. -/
theorem test_cmd_eight_bit_hazard :
    let s := ready defaultConfig true (yes 4)
    let t := after s (exec (.cmd 0x30) s)
    payloads t.env.trace = [0x3C, 0x38, 0x0C, 0x08] ∧ t.adapter.mode = .ready ∧ t.adapter.ds = s.adapter.ds := by
  decide

/-- V4: DATA 0xA5, its end PORT. -/
theorem test_data_a5 :
    let s := ready defaultConfig false (yes 4)
    let t := after s (exec (.data 0xA5) s)
    t.env.trace = [.W 0xA5, .D 1000, .W 0xA1, .D 1000, .W 0x55, .D 1000, .W 0x51, .D 1000, .D 40000]
      ∧ t.port = 0x51 ∧ t.env.statuses = [.ok] := by decide

/-- V17, V18, V3: DATA under other mappings; equal writes are not elided. -/
theorem test_data_mappings_and_repeats :
    writesOf (.data 0xA5) (ready contiguous true (yes 4)) = [0xDA, 0x9A, 0xD5, 0x95]
      ∧ writesOf (.data 0xA5) (ready scrambled false (yes 4)) = [0xAA, 0x8A, 0xF0, 0xD0]
      ∧ writesOf (.data 0x00) (ready defaultConfig false (yes 4)) = [0x05, 0x01, 0x05, 0x01] := by decide

/-! ## The display operations -/

/-- V7. -/
theorem test_clear :
    traceOf .clear (ready defaultConfig false (yes 4)) =
      [.W 0x04, .D 1000, .W 0x00, .D 1000, .W 0x14, .D 1000, .W 0x10, .D 1000, .D 1520000] := by decide

/-- V7. -/
theorem test_home :
    traceOf .home (ready defaultConfig false (yes 4)) =
      [.W 0x04, .D 1000, .W 0x00, .D 1000, .W 0x24, .D 1000, .W 0x20, .D 1000, .D 1520000] := by decide

/-- V8: the last cells of 16x2 and of 20x4. -/
theorem test_setcur_last_cell :
    writesOf (.setcur 1 15) (ready defaultConfig false (yes 4)) = [0xC4, 0xC0, 0xF4, 0xF0]
      ∧ writesOf (.setcur 3 19) (ready wide false (yes 4)) = [0xE4, 0xE0, 0x74, 0x70] := by decide

/-- V8, E8: one past the last cell. -/
theorem test_setcur_out_of_range :
    statusesOf (.setcur 0 16) (ready defaultConfig false (yes 4)) = [.invalidArgument]
      ∧ statusesOf (.setcur 2 0) (ready defaultConfig false (yes 4)) = [.invalidArgument]
      ∧ traceOf (.setcur 5 0) (ready defaultConfig false (yes 4)) = [] := by decide

/-- R164. -/
theorem test_wrchar :
    traceOf (.wrchar 0x41) (ready defaultConfig false (yes 4)) =
      [.W 0x45, .D 1000, .W 0x41, .D 1000, .W 0x15, .D 1000, .W 0x11, .D 1000, .D 40000] := by decide

/-- V9, the first row. -/
theorem test_curvis :
    let s := ready defaultConfig false (yes 4)
    let t := after s (exec (.curvis true) s)
    payloads t.env.trace = [0x04, 0x00, 0xE4, 0xE0] ∧ t.adapter.ds = ⟨true, false, true, true, false, false⟩ := by decide

/-- V9: `CURBLINK 1` after `CURVIS 1`. -/
theorem test_curblink :
    let s := updateDs (dsWithCur true) (ready defaultConfig false (yes 4))
    let t := after s (exec (.curblink true) s)
    payloads t.env.trace = [0x04, 0x00, 0xF4, 0xF0] ∧ t.adapter.ds = ⟨true, false, true, true, true, false⟩ := by decide

/-- V9: `DISPVIS 0` with cursor and blink on. -/
theorem test_dispvis :
    let s := updateDs (fun d => dsWithBlink true (dsWithCur true d)) (ready defaultConfig false (yes 4))
    let t := after s (exec (.dispvis false) s)
    payloads t.env.trace = [0x04, 0x00, 0xB4, 0xB0] ∧ t.adapter.ds = ⟨true, false, false, true, true, false⟩ := by decide

/-- V16: the fourth write of `CURVIS 1` fails; DS.C stays 0. -/
theorem test_curvis_fails :
    let s := ready defaultConfig false [.success, .success, .success, .failure]
    let t := after s (exec (.curvis true) s)
    t.env.trace = [.W 0x04, .D 1000, .W 0x00, .D 1000, .W 0xE4, .D 1000, .X 0xE0]
      ∧ t.adapter.ds.cur = false ∧ t.adapter.mode = .faulted ∧ t.env.statuses = [.transportError] := by decide

/-- V12: deferred and immediate backlight. -/
theorem test_backlight :
    let s := ready defaultConfig false []
    let t := after s (exec (.backlight true) s)
    let u := after s (exec (.backlight true) (ready immediate false (yes 1)))
    t.env.trace = [] ∧ t.adapter.ds.bl = true ∧ t.port = 0x60 ∧ t.env.statuses = [.ok]
      ∧ u.env.trace = [.W 0x08] ∧ u.port = 0x08 := by decide

/-- V12: the immediate write fails; DS.BL keeps the new value. -/
theorem test_backlight_fails :
    let s := ready immediate false [.failure]
    let t := after s (exec (.backlight true) s)
    t.env.trace = [.X 0x08] ∧ t.adapter.ds.bl = true ∧ t.adapter.mode = .faulted := by decide

/-- P4. -/
theorem test_glyph :
    writesOf (.glyph 1 [0x00, 0x0A, 0x1F, 0x1F, 0x0E, 0x04, 0x00, 0x00]) (ready defaultConfig false (yes 36)) =
      [0x44, 0x40, 0x84, 0x80, 0x05, 0x01, 0x05, 0x01, 0x05, 0x01, 0xA5, 0xA1, 0x15, 0x11, 0xF5, 0xF1,
       0x15, 0x11, 0xF5, 0xF1, 0x05, 0x01, 0xE5, 0xE1, 0x05, 0x01, 0x45, 0x41, 0x05, 0x01, 0x05, 0x01,
       0x05, 0x01, 0x05, 0x01] := by decide

/-- V13: index 8 is refused, index 7 sends 0x78. -/
theorem test_glyph_index :
    statusesOf (.glyph 8 (List.replicate 8 0)) (ready defaultConfig false (yes 36)) = [.invalidArgument]
      ∧ (writesOf (.glyph 7 (List.replicate 8 0)) (ready defaultConfig false (yes 36))).take 4
        = [0x74, 0x70, 0x84, 0x80] := by decide

/-- V14: the fourth write of the second character of `WRSTR "AB"` fails. -/
theorem test_writeString_fails :
    let t := writeString [0x41, 0x42] (ready defaultConfig false (yes 7 ++ [.failure]))
    payloads t.env.trace = [0x45, 0x41, 0x15, 0x11, 0x45, 0x41, 0x25, 0x21] ∧ t.adapter.mode = .faulted
      ∧ t.env.statuses = [.transportError] := by decide

/-! ## Refusals (V15) -/

theorem test_refused_not_ready :
    statusesOf (.data 0x41) (inMode .uninitialized (ready defaultConfig false (yes 4))) = [.notInitializedError]
      ∧ statusesOf (.setcur 5 0) (inMode .uninitialized (ready defaultConfig false (yes 4))) = [.notInitializedError]
      ∧ statusesOf (.backlight true) (inMode .faulted (ready defaultConfig false (yes 4))) = [.notInitializedError] := by
  decide

theorem test_reserved_refused :
    statusesOf (.reservedC 0) (inMode .uninitialized (ready defaultConfig false [])) = [.invalidArgument]
      ∧ statusesOf (.reservedF 7) (ready defaultConfig false []) = [.invalidArgument] := by decide

/-! ## LCD instruction bytes and the port byte -/

/-- The bytes and classes of V6 and R90 to R98. -/
theorem test_lcd_long :
    traceOf .lcdClear (ready defaultConfig false (yes 4)) = traceOf (.cmd 0x01) (ready defaultConfig false (yes 4))
      ∧ (traceOf (.lcdHome true) (ready defaultConfig false (yes 4))).getLast? = some (.D 1520000) := by decide

theorem test_lcd_short_bytes :
    writesOf (.lcdEntrymode false false) (ready defaultConfig false (yes 4)) = [0x04, 0x00, 0x44, 0x40]
      ∧ writesOf (.lcdDispctl true true false) (ready defaultConfig false (yes 4)) = [0x04, 0x00, 0xE4, 0xE0]
      ∧ writesOf (.lcdShift true false 0) (ready defaultConfig false (yes 4)) = [0x14, 0x10, 0x84, 0x80]
      ∧ writesOf (.lcdFuncset false true false 0) (ready defaultConfig false (yes 4)) = [0x24, 0x20, 0x84, 0x80]
      ∧ writesOf (.lcdSetcgram 8) (ready defaultConfig false (yes 4)) = [0x44, 0x40, 0x84, 0x80]
      ∧ writesOf (.lcdSetddram 0x25) (ready defaultConfig false (yes 4)) = [0xA4, 0xA0, 0x54, 0x50]
      ∧ traceOf .lcdNone (ready defaultConfig false (yes 4)) =
        [.W 0x04, .D 1000, .W 0x00, .D 1000, .W 0x04, .D 1000, .W 0x00, .D 1000, .D 40000] := by decide

/-- V1: `PortByte(0x4, 1, 0, 1)` is 0x45. -/
theorem test_portbyte :
    traceOf (.portbyte 0x4 false true true) (ready defaultConfig false (yes 1)) = [.W 0x45] := by decide

/-! ## The step -/

/-- A word is fetched and run as the first instruction after reset: before initialize DATA is refused (P5). -/
theorem test_step_from_reset :
    let t := after State.reset (step (State.reset.withFetchWord 80 0x20410000000000000000))
    t.env.statuses = [.notInitializedError] ∧ t.env.trace = [] ∧ t.env.requests = [] := by decide

/-- INIT as the first instruction after reset answers a next state, whatever the transport does. -/
theorem test_step_init_from_reset :
    (match step (State.reset.withFetchWord 80 0) with | .next _ => true | .fault _ => false | .refused _ => false)
      = true := by decide

/-- A table word of an LCD instruction byte runs as the operand of CMD. -/
theorem test_step_lcd_byte :
    (after State.reset (step ((ready defaultConfig false (yes 4)).withFetchWord 8 0x80))).env.trace =
      [.W 0x84, .D 1000, .W 0x80, .D 1000, .W 0x04, .D 1000, .W 0x00, .D 1000, .D 40000] := by decide

/-- V15: an illegal word is InvalidArgument in Uninitialized. -/
theorem test_step_illegal :
    (after State.reset (step (State.reset.withFetchWord 80 0x30000000000000000001))).env.statuses
      = [.invalidArgument] := by decide

/-- R209, R222: a write that is not answered keeps the port busy until reset. -/
theorem test_step_hang_and_reset :
    let s := presentWord 0x20410000000000000000 (ready defaultConfig false [.success, .silence])
    let t := after s (step s)
    let u := { t with env := { t.env with requests := [.word 0] } }
    let v := { t with env := { t.env with requests := [.reset] } }
    t.adapter.outstanding = some 0x41 ∧ t.env.trace = [.W 0x45, .D 1000] ∧ t.env.statuses = []
      ∧ (after s (step u)).env.requests = [.word 0]
      ∧ (after s (step v)).adapter.outstanding = none ∧ (after s (step v)).env.trace = [] := by decide

/-- R222: reset during the power-up wait of initialize, and in the middle of a pulse of DATA: no status, no event, the
values of R221, and only the answers to the writes made are used. -/
theorem test_step_reset_during_operation :
    let s := ready defaultConfig true (yes 24)
    let present (w : HostWord) (n : Nat) := after s (step { s with env := { s.env with requests := [.wordThenReset w n, .word 0] } })
    let t := present 0x20410000000000000000 2
    t.adapter.mode = .uninitialized ∧ t.adapter.ds.bl = false ∧ t.env.trace = [] ∧ t.env.statuses = []
      ∧ t.env.requests = [.word 0] ∧ t.env.answers = yes 23
      ∧ (present 0 0).adapter.mode = .uninitialized ∧ (present 0 0).env.answers = yes 24 := by decide

/-- R242: a word that waits at a busy port does not hold up the reset behind it. -/
theorem test_step_reset_behind_waiting_word :
    let s := setOutstanding 0x41 (ready defaultConfig false [])
    let t := after s (step { s with env := { s.env with requests := [.word 0, .reset] } })
    t.adapter.outstanding = none ∧ t.adapter.mode = .uninitialized ∧ t.env.requests = [.word 0] := by decide

/-! ## The observer (V19) -/

theorem test_observer :
    samples defaultConfig [.W 0x45, .W 0x41, .W 0x15, .W 0x11] = [⟨true, 4⟩, ⟨true, 1⟩]
      ∧ byteView [⟨true, 4⟩, ⟨true, 1⟩] = [(true, 0x41)]
      ∧ samples defaultConfig [.W 0x08] = []
      ∧ (pulses defaultConfig [.W 0x04, .W 0xE4, .W 0xE0]).map (cleanPulse defaultConfig) = [false]
      ∧ samples defaultConfig [.W 0x04, .W 0xE4, .W 0xE0] = []
      ∧ pulses defaultConfig [.W 0x04, .X 0x00] = [] := by decide

/-- R8: adjacent delays add. -/
theorem test_merge_delays :
    mergeDelays [.W 0x41, .D 1000, .D 40000, .W 0x01] = [.W 0x41, .D 41000, .W 0x01] := by decide

/-- R35: `ceil(t / TICK_NS)` ticks. -/
theorem test_delay_ticks :
    delayTicks { defaultConfig with tickNs := 300 } 1000 = 4 ∧ delayTicks { defaultConfig with tickNs := 250 } 1000 = 4
      := by decide

/-! ## Witnesses: for each statement of the certificates that has hypotheses, a state and operands that meet them -/

/-- Whether an outcome is a next state. -/
def isNext : Host.Outcome State Fault Refusal → Bool
  | .next _ => true
  | .fault _ => false
  | .refused _ => false

/-- An outcome that is a next state is the one `after` gives: a witness `isNext (step s) = true` meets the hypothesis
`step s = .next t` for that `t`. -/
theorem next_of_isNext {s : State} {o : Host.Outcome State Fault Refusal} (h : isNext o = true) : o = .next (after s o) := by
  cases o <;> first | rfl | cases h

/-- A Ready state with nothing listed, the transport answering 36 writes. -/
def idleReady : State := ready defaultConfig false (yes 36)

/-- The same, the host presenting `w`. -/
def withWord (w : HostWord) : State := { idleReady with env := { idleReady.env with requests := [.word w] } }

/-- The same, the host asserting reset. -/
def withReset : State := { idleReady with env := { idleReady.env with requests := [.reset] } }

/-- A state a run reaches: DATA 0x41 has been sent, and the host presents CLEAR. -/
def midRun : State := presentWord 0x30000000000000000000 (after idleReady (exec (.data 0x41) idleReady))

/-- A state a run reaches: the second write of DATA 0x41 is not answered, and the host asserts reset. -/
def midHang : State :=
  let t := after idleReady (exec (.data 0x41) (ready defaultConfig false [.success, .silence]))
  { t with env := { t.env with requests := [.reset] } }

theorem test_witness_DecodeOfEncodeIsInstr :
    (Instr.glyph 7 [0xFF, 0, 0, 0, 0, 0, 0, 0x1F]).wf = true ∧ (Instr.setcur 15 0xFF).wf = true
      ∧ (Instr.reservedF (BitVec.allOnes 76)).wf = true := by decide

theorem test_witness_EncodeOfDecodeIsCode :
    decode (.host 0x5FFF0000000000000000) = .ok (.setcur 15 0xFF)
      ∧ decode (.lcd 0xFF) = .ok (.lcdSetddram 0x7F) ∧ decode (.port 0xFD) = .ok (.portbyte 0xF true true true) := by decide

/-- Both clauses, at the last legal word and at the first illegal ones. -/
theorem test_witness_WordIsLegalOrIllegal :
    ¬ IllegalWord 0xBF00FFFFFFFFFFFFFFFF ∧ ¬ IllegalWord 0x70010000000000000000 ∧ IllegalWord 0x70020000000000000000
      ∧ IllegalWord 0xC0000000000000000000 ∧ IllegalWord 0x00000000000000000001 := by
  unfold IllegalWord; decide

theorem test_witness_IllegalWordRefused :
    let s := withWord 0xB0010000000000000000
    configWf s.cfg = true ∧ s.adapter.outstanding = none ∧ s.env.requests = [.word 0xB0010000000000000000]
      ∧ IllegalWord 0xB0010000000000000000 := by
  unfold IllegalWord; decide

theorem test_witness_StepRunsDecodedInstruction :
    let s := withWord 0x51070000000000000000
    configWf s.cfg = true ∧ s.adapter.outstanding = none ∧ s.env.requests = [.word 0x51070000000000000000]
      ∧ decode (.host 0x51070000000000000000) = .ok (.setcur 1 7) := by decide

/-- Both clauses: no request, and a word at a busy port. -/
theorem test_witness_StepWaitsWithoutAcceptedRequest :
    let s := setOutstanding 0x45 (withWord 0)
    configWf idleReady.cfg = true ∧ idleReady.env.requests = []
      ∧ configWf s.cfg = true ∧ s.env.requests = [.word 0] ∧ s.adapter.outstanding = some 0x45
      ∧ .reset ∉ s.env.requests := by decide

theorem test_witness_IllFormedConfigStops :
    configWf (ready { defaultConfig with rows := 0 } false []).cfg = false := by decide

/-- From Ready and from a busy port, with a word before the reset. -/
theorem test_witness_ResetTakenInEveryState :
    let s := setOutstanding 0x41 (presentWord 0 midHang)
    configWf withReset.cfg = true ∧ withReset.env.requests = [.reset]
      ∧ configWf midHang.cfg = true ∧ midHang.env.requests = [.reset] ∧ midHang.adapter.outstanding = some 0x41
      ∧ configWf s.cfg = true ∧ s.adapter.outstanding = some 0x41 ∧ s.env.requests = [.word 0, .reset] := by decide

/-- In the middle of a pulse, before the first event and after the last, and an illegal word. -/
theorem test_witness_ResetAbandonsOperation :
    let s := { idleReady with env := { idleReady.env with requests := [.wordThenReset 0x20410000000000000000 2] } }
    let u := { idleReady with env := { idleReady.env with requests := [.wordThenReset 0xC0000000000000000000 0] } }
    configWf s.cfg = true ∧ s.adapter.outstanding = none ∧ s.env.requests = [.wordThenReset 0x20410000000000000000 2]
      ∧ decode (.host 0x20410000000000000000) = .ok (.data 0x41) ∧ Executes (.data 0x41) s
      ∧ (expansion (.data 0x41) s).length = 9
      ∧ TransportSucceeds (writeCount ((expansion (.data 0x41) s).take 0)) s
      ∧ TransportSucceeds (writeCount ((expansion (.data 0x41) s).take 2)) s
      ∧ TransportSucceeds (writeCount ((expansion (.data 0x41) s).take 9)) s
      ∧ configWf u.cfg = true ∧ u.adapter.outstanding = none := by
  unfold Executes TransportSucceeds; decide

theorem test_witness_InitCompletes : TransportSucceeds (writeCount (initEvents defaultConfig false)) idleReady := by
  unfold TransportSucceeds; decide

theorem test_witness_InitEventsAreTheHandshake : wide.lcdi = defaultLcdi ∧ immediate.lcdi = defaultLcdi := by decide

/-- For CMD, DATA, CLEAR, HOME, WRCHAR, the flag operations and the LCD instruction bytes. -/
theorem test_witness_ByteOperationsComplete :
    idleReady.adapter.mode = .ready ∧ TransportSucceeds 4 idleReady ∧ idleReady.cfg.lcdi = defaultLcdi := by
  unfold TransportSucceeds; decide

/-- The first and the last cell. -/
theorem test_witness_SetcurCompletes :
    idleReady.adapter.mode = .ready ∧ TransportSucceeds 4 idleReady
      ∧ (0#4).toNat < idleReady.cfg.rows ∧ (0#8).toNat < idleReady.cfg.cols
      ∧ (1#4).toNat < idleReady.cfg.rows ∧ (15#8).toNat < idleReady.cfg.cols
      ∧ configWf idleReady.cfg = true ∧ idleReady.cfg.lcdi = defaultLcdi := by
  unfold TransportSucceeds; decide

/-- Both clauses: without and with BL_IMMEDIATE. -/
theorem test_witness_BacklightCompletes :
    idleReady.adapter.mode = .ready ∧ idleReady.cfg.blImmediate = false
      ∧ (ready immediate false (yes 1)).adapter.mode = .ready ∧ (ready immediate false (yes 1)).cfg.blImmediate = true
      ∧ TransportSucceeds 1 (ready immediate false (yes 1)) := by
  unfold TransportSucceeds; decide

theorem test_witness_GlyphCompletes :
    idleReady.adapter.mode = .ready ∧ (0#4).toNat ≤ 7 ∧ (7#4).toNat ≤ 7
      ∧ TransportSucceeds (4 + 4 * (List.replicate 8 (0x1F : Byte)).length) idleReady := by
  unfold TransportSucceeds; decide

theorem test_witness_PortbyteCompletes : TransportSucceeds 1 (inMode .uninitialized idleReady) := by
  unfold TransportSucceeds; decide

/-- The empty string and a string of nine characters. -/
theorem test_witness_WriteStringCompletes :
    idleReady.adapter.mode = .ready ∧ TransportSucceeds (4 * ([] : List Byte).length) idleReady
      ∧ TransportSucceeds (4 * (List.replicate 9 (0x41 : Byte)).length) idleReady := by
  unfold TransportSucceeds; decide

/-- In Uninitialized and in Faulted, and a returned NotInitializedError, of the empty string too. -/
theorem test_witness_NotReadyRefused :
    (writeString [] (inMode .faulted idleReady)).env.statuses = [.notInitializedError] ∧
    needsReady (.backlight true) = true ∧ (inMode .uninitialized idleReady).adapter.mode ≠ .ready
      ∧ (inMode .faulted idleReady).adapter.mode ≠ .ready
      ∧ isNext (exec (.cmd 0) (inMode .faulted idleReady)) = true
      ∧ statusesOf (.cmd 0) (inMode .faulted idleReady) = [.notInitializedError] := by decide

/-- Each clause one past its bound: row ROWS, column COLS, index 8. -/
theorem test_witness_InvalidArgumentRefused :
    idleReady.adapter.mode = .ready ∧ idleReady.cfg.rows ≤ (2#4).toNat ∧ idleReady.cfg.cols ≤ (16#8).toNat
      ∧ 8 ≤ (8#4).toNat := by decide

/-- Each clause: a reserved code, a mode, an argument, and an instruction that executes. -/
theorem test_witness_FirstErrorReported :
    isReserved (.reservedC 0) = true ∧ isNext (exec (.reservedC 0) idleReady) = true
      ∧ isReserved (.setcur 2 0) = false ∧ needsReady (.setcur 2 0) = true
      ∧ (inMode .uninitialized idleReady).adapter.mode ≠ .ready
      ∧ idleReady.adapter.mode = .ready ∧ argumentsOk idleReady.cfg (.setcur 2 0) = false
      ∧ isNext (exec (.setcur 2 0) idleReady) = true ∧ Executes (.setcur 1 15) idleReady := by
  unfold Executes; decide

/-- The first and the last write of a command, and the last write of initialize. -/
theorem test_witness_FailedWriteFaults :
    let s := ready defaultConfig false [.failure]
    let t := ready defaultConfig false (yes 3 ++ [.failure])
    let u := inMode .uninitialized (ready defaultConfig false (yes 23 ++ [.failure]))
    Executes .clear s ∧ FailsAt 0 (expansion .clear s) s ∧ FailsAt 3 (expansion .clear t) t
      ∧ Executes .init u ∧ FailsAt 23 (expansion .init u) u := by
  unfold Executes FailsAt TransportSucceeds; decide

/-- The first write, the transport answering nothing more; and the last write, the answer withheld. -/
theorem test_witness_UnansweredWriteHangs :
    let s := ready defaultConfig false []
    let t := ready defaultConfig false (yes 3 ++ [.silence])
    Executes .home s ∧ SilentAt 0 (expansion .home s) s ∧ SilentAt 3 (expansion .home t) t := by
  unfold Executes SilentAt TransportSucceeds; decide

theorem test_witness_AnsweredInstructionReturns :
    let s := ready defaultConfig false [.success, .failure, .success, .failure]
    TransportAnswers (writeCount (expansion (.cmd 0x28) s)) s := by
  unfold TransportAnswers; decide

/-- Each clause: a reset, an illegal word, and operations. -/
theorem test_witness_ModeFollowsTransitionTable :
    withReset.env.requests = [.reset] ∧ isNext (step withReset) = true
      ∧ (withWord 0x01000000000000000000).adapter.outstanding = none
      ∧ (withWord 0x01000000000000000000).env.requests = [.word 0x01000000000000000000]
      ∧ IllegalWord 0x01000000000000000000 ∧ isNext (step (withWord 0x01000000000000000000)) = true
      ∧ isNext (exec .init idleReady) = true := by
  unfold IllegalWord; decide

theorem test_witness_StepKeepsRwClear : RwClear midRun ∧ isNext (step midRun) = true := by
  unfold RwClear; decide

/-- The two ways to be paired: between operations, and while a pair is open. -/
theorem test_witness_StepKeepsPulsePairs :
    pairing midRun.cfg none midRun.env.trace = some none ∧ isNext (step midRun) = true
      ∧ pairing midHang.cfg none midHang.env.trace = some (some 0x41) ∧ midHang.adapter.outstanding = some 0x41
      ∧ isNext (step midHang) = true := by decide

/-- Also for StepKeepsPulsesClean: the trace has pulses. -/
theorem test_witness_StepKeepsPulsesClean :
    Paired midRun ∧ (pulses midRun.cfg midRun.env.trace).length = 2 ∧ isNext (step midRun) = true := by
  refine ⟨.inl ?_, ?_⟩ <;> decide

theorem test_witness_StepKeepsEnableLow :
    EnableRests midRun ∧ midRun.adapter.mode = .ready ∧ midRun.adapter.outstanding = none ∧ isNext (step midRun) = true := by
  unfold EnableRests; decide

theorem test_witness_StepKeepsEntryMode :
    EntryModeFixed midRun ∧ midRun.adapter.mode = .ready ∧ isNext (step midRun) = true := by
  unfold EntryModeFixed; decide

/-- Also for StepKeepsConfig. -/
theorem test_witness_BacklightBitInEveryByte :
    isNext (step midRun) = true ∧ (after midRun (step midRun)).env.trace ≠ [] := by decide

/-- Also for HiddenRegistersAreNotRead and RecordIsNotRead. -/
theorem test_witness_DsWrittenOnlyByItsOperations :
    isNext (exec (.curvis true) idleReady) = true ∧ isNext (exec .init idleReady) = true := by decide

/-- Both statuses. -/
theorem test_witness_RefusalChangesNothing :
    isNext (exec (.glyph 8 []) idleReady) = true ∧ statusesOf (.glyph 8 []) idleReady = [.invalidArgument]
      ∧ isNext (exec .home (inMode .faulted idleReady)) = true
      ∧ statusesOf .home (inMode .faulted idleReady) = [.notInitializedError] := by decide

/-- A string of two characters: with success, with a failure and with a silence on the sixth write, and after a fault;
the empty string. -/
theorem test_witness_StringExpansionRunsAsWriteString :
    configWf defaultConfig = true ∧ ([0x41, 0x42] : List Byte) ≠ [] ∧ wrstrRequests [] = []
      ∧ (ready defaultConfig false (yes 8)).adapter.mode = .ready
      ∧ (ready defaultConfig false (yes 8)).adapter.outstanding = none
      ∧ statusesAfterString (ready defaultConfig false (yes 8)) = some [.ok, .ok]
      ∧ statusesAfterString (ready defaultConfig false (yes 5 ++ [.failure])) = some [.ok, .transportError]
      ∧ statusesAfterString (ready defaultConfig false (yes 5 ++ [.silence])) = some [.ok]
      ∧ statusesAfterString (inMode .faulted (ready defaultConfig false (yes 8)))
        = some [.notInitializedError, .notInitializedError] := by decide

/-- Every form of R101. -/
theorem test_witness_AssemblyNamesItsInstruction :
    Instr.wf (.glyph 7 (List.replicate 8 0x1F)) = true
      ∧ assembly (.glyph 7 (List.replicate 8 0x1F)) = some ("GLYPH", [7, 31, 31, 31, 31, 31, 31, 31, 31])
      ∧ Instr.wf (.setcur 1 15) = true ∧ assembly (.setcur 1 15) = some ("SETCUR", [15, 1])
      ∧ Instr.wf (.curblink true) = true ∧ assembly (.curblink true) = some ("CURBLINK", [1])
      ∧ Instr.wf (.cmd 0xFF) = true ∧ assembly (.cmd 0xFF) = some ("CMD", [255])
      ∧ Instr.wf .init = true ∧ assembly .init = some ("INIT", []) := by decide

/-- For PortByteLines and DisplayReceivesTheByte: three mappings. -/
theorem test_witness_PortByteLines :
    configWf defaultConfig = true ∧ configWf contiguous = true ∧ configWf scrambled = true := by decide

/-- For ArithmeticDoesNotOverflow and DisplayViewOfInit: the last cell of a 20x4 display, the last index. -/
theorem test_witness_ArithmeticDoesNotOverflow :
    configWf wide = true ∧ wide.lcdi = defaultLcdi ∧ 3 < wide.rows ∧ 19 < wide.cols ∧ (7#4).toNat ≤ 7 := by decide

theorem test_witness_MinimumDurations :
    idleReady.cfg.times = defaultTiming ∧ idleReady.cfg.lcdi = defaultLcdi ∧ Executes .init idleReady
      ∧ Executes (.cmd 0x04) idleReady ∧ Executes (.data 0xFF) idleReady ∧ Executes (.wrchar 0) idleReady
      ∧ Executes .clear idleReady ∧ Executes .home idleReady ∧ Executes (.setcur 1 15) idleReady
      ∧ Executes (.dispvis false) idleReady ∧ Executes (.curvis true) idleReady ∧ Executes (.curblink true) idleReady
      ∧ Executes (.glyph 7 (List.replicate 8 0)) idleReady ∧ Executes (.backlight true) idleReady
      ∧ TransportSucceeds (writeCount (expansion (.glyph 7 (List.replicate 8 0)) idleReady)) idleReady
      ∧ isNext (exec (.glyph 7 (List.replicate 8 0)) idleReady) = true
      ∧ idleReady.adapter.mode = .ready ∧ TransportSucceeds (4 * (List.replicate 9 (0x41 : Byte)).length) idleReady := by
  unfold Executes TransportSucceeds; decide

end Sys2Proof.Tests
end

section
/-! PROOFS. The scope of a step: it runs the instruction the presented word decodes to (R9, R84, R242), and it writes no
parameter (R5, R32). -/

namespace Sys2Proof.Machine

/-! ## A presented word that is an instruction -/

/-- Taking the request at the head leaves the requests behind it. -/
theorem dropRequest_of_cons {s : State} {r : Request} {rest : List Request} (hr : s.env.requests = r :: rest) :
    dropRequest s = { s with env := { s.env with requests := rest } } := by
  rw [dropRequest, hr, List.tail_cons]

/-- At a ready port, a presented word that decodes is the instruction to run. -/
theorem fetch_eq_run {s : State} {w : HostWord} {rest : List Request} {i : Instr}
    (ho : s.adapter.outstanding = none) (hr : s.env.requests = .word w :: rest) (hd : decode (.host w) = .ok i) :
    fetch s = .run i := by
  rw [fetch_word ho hr, hd]

/-- A step that finds an instruction takes its request and executes it. -/
theorem step_of_fetch_run {s : State} {i : Instr} (hw : configWf s.cfg = true) (hf : fetch s = .run i) :
    step s = exec i (dropRequest s) := by
  rw [step, if_pos hw, hf]

/-- Settles O7: `fetch` finds the decoded instruction, and the step executes it on the state with its request taken. -/
theorem stepRunsDecodedInstruction : Obligations.StepRunsDecodedInstruction := by
  intro s w rest i hw ho hr hd
  rw [step_of_fetch_run hw (fetch_eq_run ho hr hd), dropRequest_of_cons hr]

/-! ## The configuration -/

/-- No instruction writes the configuration (R5). -/
theorem exec_cfg {i : Instr} {s t : State} (h : exec i s = .next t) : t.cfg = s.cfg := by
  obtain ⟨u, hu, hc, -⟩ := exec_next i s
  obtain rfl : u = t := by simpa [hu] using h
  exact hc

/-- Settles O41: of the four things a step can do, a reset keeps the configuration (R32), a refusal returns only a status,
and an instruction that executes keeps it by `exec_cfg`. -/
theorem stepKeepsConfig : Obligations.StepKeepsConfig := by
  intro s t h
  obtain ⟨-, rfl | ⟨u, rfl, hu⟩ | ⟨-, ⟨st, rfl, -⟩ | ⟨i, -, -, he⟩⟩⟩ := step_cases h
  · rfl
  · rw [assertReset_cfg, hu]
  · rw [returnStatus_cfg, dropRequest_cfg]
  · rw [exec_cfg he, dropRequest_cfg]

end Sys2Proof.Machine
end

section
/-! PROOFS. The state at reset (R37, R221), who writes `DS` (R24 to R30), the backlight bit of every byte (R30, R118), and
what no instruction reads (R21, R22, R31, R36). -/

namespace Sys2Proof.Machine

/-! ## Reset -/

/-- The default configuration is well-formed (R5, R6), whatever the OPEN tick is. -/
theorem configWf_defaultConfig : configWf defaultConfig = true := by
  have hp : pinsWf defaultConfig = true := by decide
  have hg : geometryWf defaultConfig = true := by decide
  have hr : rowsWf defaultConfig = true := by decide
  have ht : 0 < defaultConfig.tickNs := Nat.succ_pos _
  simp only [configWf, hp, hg, hr, ht, decide_true, Bool.and_self]

/-- Settles O10: the values are those `State.reset` writes (R221), in the default configuration. -/
theorem resetStateValues : Obligations.ResetStateValues :=
  ⟨⟨rfl, rfl, rfl, rfl, rfl, rfl, rfl⟩, configWf_defaultConfig, rfl⟩

/-! ## What an instruction that answers has done -/

/-- An instruction that executes has completed, faulted or hung. -/
theorem ends_of_executes {i : Instr} {s t : State} (he : Executes i s) (h : exec i s = .next t) :
    Completes (expansion i s) (modeOnOk i s.adapter.mode) (dsOnOk i s.adapter.ds) s t
      ∨ (∃ k, Faults k (expansion i s) (dsDuring i s.adapter.ds) s t)
      ∨ ∃ k, Hangs k (expansion i s) (dsDuring i s.adapter.ds) s t := by
  obtain ⟨u, hu, hends⟩ := exec_cases i s he
  obtain rfl : u = t := by simpa [hu] using h
  rcases hends with ⟨-, hc⟩ | ⟨k, -, hf⟩ | ⟨k, -, hh⟩
  · exact .inl hc
  · exact .inr (.inl ⟨k, hf⟩)
  · exact .inr (.inr ⟨k, hh⟩)

/-- `DS` after an instruction that executes: its value on OK, or its value during the transmission (R196, R209). -/
theorem ds_of_executes {i : Instr} {s t : State} (he : Executes i s) (h : exec i s = .next t) :
    t.adapter.ds = dsOnOk i s.adapter.ds ∨ t.adapter.ds = dsDuring i s.adapter.ds := by
  rcases ends_of_executes he h with ⟨-, -, hds, -⟩ | ⟨k, -, -, hds, -⟩ | ⟨k, -, -, hds, -⟩
  · exact .inl hds
  · exact .inr hds
  · exact .inr hds

/-- `DS` after any instruction: a refused one leaves it (R196). -/
theorem ds_of_exec {i : Instr} {s t : State} (h : exec i s = .next t) :
    t.adapter.ds = s.adapter.ds ∨ t.adapter.ds = dsOnOk i s.adapter.ds ∨ t.adapter.ds = dsDuring i s.adapter.ds := by
  rcases checks_cases i s with hr | ⟨hn, hm⟩ | ⟨-, hm, ha⟩ | he
  · obtain rfl : returnStatus .invalidArgument s = t := by simpa [exec_reserved i s hr] using h
    exact .inl rfl
  · obtain rfl : returnStatus .notInitializedError s = t := by simpa [exec_notReady i s hn hm] using h
    exact .inl rfl
  · obtain rfl : returnStatus .invalidArgument s = t := by simpa [exec_badArgument i s hm ha] using h
    exact .inl rfl
  · exact .inr (ds_of_executes he h)

/-- The writes an instruction that executes adds to the trace are writes of its rule's event list. -/
theorem new_writes_of_executes {i : Instr} {s t : State} (he : Executes i s) (h : exec i s = .next t) :
    ∃ new, t.env.trace = s.env.trace ++ new ∧ ∀ b ∈ payloads new, b ∈ payloads (expansion i s) := by
  rcases ends_of_executes he h with ⟨-, -, -, -, -, -, -, henv⟩ | ⟨k, -, -, -, -, -, -, -, henv⟩
    | ⟨k, -, -, -, -, -, -, -, henv⟩
  · exact ⟨_, congrArg Environment.trace henv, fun _ hb => hb⟩
  · exact ⟨_, congrArg Environment.trace henv, fun _ hb => mem_payloads_cutAtWrite hb⟩
  · exact ⟨_, congrArg Environment.trace henv, fun _ hb => mem_payloads_beforeWrite hb⟩

/-! ## Who writes `DS` -/

/-- From `d` to `d'` only those flags differ that the instruction may write (R24, R30). -/
structure FlagFrame (i : Instr) (d d' : DisplayState) : Prop where
  bl : (∀ on, i ≠ .backlight on) → d'.bl = d.bl
  entry : i ≠ .init → d'.inc = d.inc ∧ d'.shift = d.shift
  disp : i ≠ .init → (∀ v, i ≠ .dispvis v) → d'.disp = d.disp
  cur : i ≠ .init → (∀ v, i ≠ .curvis v) → d'.cur = d.cur
  blink : i ≠ .init → (∀ v, i ≠ .curblink v) → d'.blink = d.blink

theorem FlagFrame.refl (i : Instr) (d : DisplayState) : FlagFrame i d d where
  bl _ := rfl
  entry _ := ⟨rfl, rfl⟩
  disp _ _ := rfl
  cur _ _ := rfl
  blink _ _ := rfl

theorem flagFrame_dsOnOk (i : Instr) (d : DisplayState) : FlagFrame i d (dsOnOk i d) := by
  unfold dsOnOk
  split
  case h_1 =>
    exact ⟨fun _ => rfl, fun h => absurd rfl h, fun h => absurd rfl h, fun h => absurd rfl h, fun h => absurd rfl h⟩
  case h_2 v => exact { FlagFrame.refl _ d with disp := fun _ h => absurd rfl (h v) }
  case h_3 v => exact { FlagFrame.refl _ d with cur := fun _ h => absurd rfl (h v) }
  case h_4 v => exact { FlagFrame.refl _ d with blink := fun _ h => absurd rfl (h v) }
  case h_5 on => exact { FlagFrame.refl _ d with bl := fun h => absurd rfl (h on) }
  case h_6 => exact FlagFrame.refl _ d

theorem flagFrame_dsDuring (i : Instr) (d : DisplayState) : FlagFrame i d (dsDuring i d) := by
  unfold dsDuring
  split
  case h_1 on => exact { FlagFrame.refl _ d with bl := fun h => absurd rfl (h on) }
  case h_2 => exact FlagFrame.refl _ d

/-- Settles O42: `DS` is left, committed on OK or changed by setBacklight before it transmits, and each keeps the frame. -/
theorem dsWrittenOnlyByItsOperations : Obligations.DsWrittenOnlyByItsOperations := by
  intro i s t h
  have frame : FlagFrame i s.adapter.ds t.adapter.ds := by
    rcases ds_of_exec h with hds | hds | hds
    · rw [hds]; exact .refl i _
    · rw [hds]; exact flagFrame_dsOnOk i _
    · rw [hds]; exact flagFrame_dsDuring i _
  exact ⟨frame.bl, frame.entry, frame.disp, frame.cur, frame.blink⟩

/-! ## The entry-mode flags -/

theorem modeOnOk_of_ne_init {i : Instr} (hi : i ≠ .init) (m : Mode) : modeOnOk i m = m := by
  unfold modeOnOk
  split
  · exact absurd rfl hi
  · rfl

/-- No instruction writes the entry-mode flags before it transmits (R25, R26). -/
theorem dsDuring_entry (i : Instr) (d : DisplayState) : (dsDuring i d).inc = d.inc ∧ (dsDuring i d).shift = d.shift := by
  unfold dsDuring
  split
  · exact ⟨rfl, rfl⟩
  · exact ⟨rfl, rfl⟩

/-- An instruction that executes keeps the entry mode: INIT sets it on its way to Ready (R141), a failed write leaves
Ready (R196), and nothing else writes `MODE` or these flags. -/
theorem entryModeFixed_of_executes {i : Instr} {s t : State} (he : Executes i s) (h : exec i s = .next t)
    (hs : EntryModeFixed s) : EntryModeFixed t := by
  intro hready
  rcases ends_of_executes he h with ⟨-, hmode, hds, -⟩ | ⟨k, -, hmode, -⟩ | ⟨k, -, hmode, hds, -⟩
  · rw [hds]
    by_cases hi : i = .init
    · subst hi; exact ⟨rfl, rfl⟩
    · obtain ⟨hinc, hshift⟩ := (flagFrame_dsOnOk i s.adapter.ds).entry hi
      rw [modeOnOk_of_ne_init hi, hready] at hmode
      rw [hinc, hshift]
      exact hs hmode.symm
  · rw [hready] at hmode; cases hmode
  · obtain ⟨hinc, hshift⟩ := dsDuring_entry i s.adapter.ds
    rw [hds, hinc, hshift]
    exact hs (hmode.symm.trans hready)

/-- Settles O40: a reset leaves Ready (R221), a refusal leaves `MODE` and `DS`, and an instruction that executes keeps the
entry mode. -/
theorem stepKeepsEntryMode : Obligations.StepKeepsEntryMode := by
  intro s t hs h
  obtain ⟨-, rfl | ⟨u, rfl, -⟩ | ⟨-, ⟨st, rfl, -⟩ | ⟨i, -, he, hi⟩⟩⟩ := step_cases h
  · exact hs
  · intro hready; cases hready
  · exact hs
  · exact entryModeFixed_of_executes he hi hs

/-! ## One line of every write -/

/-- Every write of the list has the line of role `r` at `v`. -/
def WritesCarry (c : Config) (r : Role) (v : Bool) (es : List Event) : Prop :=
  ∀ b ∈ payloads es, lineLevel c b r = v

@[simp] theorem writesCarry_append (c : Config) (r : Role) (v : Bool) (a b : List Event) :
    WritesCarry c r v (a ++ b) ↔ WritesCarry c r v a ∧ WritesCarry c r v b := by
  simp [WritesCarry, or_imp, forall_and]

@[simp] theorem writesCarry_idle (c : Config) (r : Role) (v : Bool) (t : Nat) : WritesCarry c r v (idle t) := by
  simp [WritesCarry]

theorem writesCarry_flatMap {α : Type} {c : Config} {r : Role} {v : Bool} {f : α → List Event} (l : List α)
    (h : ∀ a, WritesCarry c r v (f a)) : WritesCarry c r v (l.flatMap f) := by
  induction l with
  | nil => simp [WritesCarry]
  | cons x xs ih => exact (writesCarry_append c r v _ _).2 ⟨h x, ih⟩

/-- Both writes of a pulse have the line of `x` on every role but Enable (R112). -/
theorem writesCarry_pulseEvents {c : Config} {r : Role} {v : Bool} {x : Byte} (hw : configWf c = true) (hr : r ≠ .en)
    (hx : lineLevel c x r = v) : WritesCarry c r v (pulseEvents c x) := by
  have hhigh : lineLevel c (x ||| enableMask c) r = v := by rw [lineLevel_or_enableMask hw, if_neg hr, hx]
  simp [WritesCarry, pulseEvents, hhigh, hx]

/-! A line that every nibble byte of the backlight setting `bl` has at `v` is at `v` in every event list built of them. -/
section
variable {c : Config} {bl : Bool} {r : Role} {v : Bool} (hw : configWf c = true) (hr : r ≠ .en)
  (hn : ∀ nib rs, lineLevel c (nibbleByte c bl nib rs) r = v)
include hw hr hn

theorem writesCarry_byteEvents (b : Byte) (rs : Bool) : WritesCarry c r v (byteEvents c bl b rs) :=
  (writesCarry_append c r v _ _).2
    ⟨writesCarry_pulseEvents hw hr (hn _ rs), writesCarry_pulseEvents hw hr (hn _ rs)⟩

theorem writesCarry_commandEvents (cmd : Byte) : WritesCarry c r v (commandEvents c bl cmd) := by
  simp [commandEvents, writesCarry_byteEvents hw hr hn]

theorem writesCarry_dataEvents (value : Byte) : WritesCarry c r v (dataEvents c bl value) := by
  simp [dataEvents, writesCarry_byteEvents hw hr hn]

theorem writesCarry_handshakeEvents : WritesCarry c r v (handshakeEvents c bl) := by
  unfold handshakeEvents
  split
  · simp [WritesCarry]
  · have hpulse := fun m => writesCarry_pulseEvents hw hr (hn m false)
    rw [writesCarry_append, writesCarry_append]
    exact ⟨⟨hpulse _, writesCarry_idle c r v _⟩, writesCarry_flatMap _ fun m => by simp [hpulse]⟩

theorem writesCarry_initEvents : WritesCarry c r v (initEvents c bl) := by
  simp [initEvents, writesCarry_byteEvents hw hr hn, writesCarry_handshakeEvents hw hr hn]

theorem writesCarry_glyphEvents (index : BitVec 4) (rows : List Byte) :
    WritesCarry c r v (glyphEvents c bl index rows) :=
  (writesCarry_append c r v _ _).2
    ⟨writesCarry_commandEvents hw hr hn _, writesCarry_flatMap rows (writesCarry_dataEvents hw hr hn)⟩

end

/-- The one write of setBacklight is a nibble byte of the new setting (R169). -/
theorem writesCarry_backlightEvents {c : Config} {on : Bool} {r : Role} {v : Bool}
    (hn : ∀ nib rs, lineLevel c (nibbleByte c on nib rs) r = v) : WritesCarry c r v (backlightEvents c on) := by
  unfold backlightEvents
  split
  · exact fun b hb => List.mem_singleton.1 hb ▸ hn 0 false
  · simp [WritesCarry]

/-- An instruction of the host writes only nibble bytes of the backlight setting it transmits with, and those bytes with
Enable raised (R110, R111). -/
theorem writesCarry_expansion {i : Instr} {s : State} {r : Role} {v : Bool} (hw : configWf s.cfg = true)
    (hr : r ≠ .en) (hi : isHostInstr i = true)
    (hn : ∀ nib rs, lineLevel s.cfg (nibbleByte s.cfg (dsDuring i s.adapter.ds).bl nib rs) r = v) :
    WritesCarry s.cfg r v (expansion i s) := by
  cases i with
  | init => exact writesCarry_initEvents hw hr hn
  | cmd | clear | home | setcur | dispvis | curvis | curblink => exact writesCarry_commandEvents hw hr hn _
  | data | wrchar => exact writesCarry_dataEvents hw hr hn _
  | backlight on => exact writesCarry_backlightEvents hn
  | glyph index rows => exact writesCarry_glyphEvents hw hr hn index rows
  | reservedC | reservedD | reservedE | reservedF => simp [expansion, WritesCarry]
  | lcdClear | lcdHome | lcdEntrymode | lcdDispctl | lcdShift | lcdFuncset | lcdSetcgram | lcdSetddram | lcdNone
  | portbyte => cases hi

/-! ## The backlight bit -/

/-- A nibble byte has the backlight bit of its setting (R111). -/
theorem lineLevel_nibbleByte_bl {c : Config} (hw : configWf c = true) (bl : Bool) (nib : Nibble) (rs : Bool) :
    lineLevel c (nibbleByte c bl nib rs) .bl = bl := by
  simp [nibbleByte, portByte, lineLevel_or, lineLevel_atRole hw]

/-- `DS.BL` on OK is the setting the instruction transmitted with: setBacklight writes it first (R169), no other does. -/
theorem dsOnOk_bl (i : Instr) (d : DisplayState) : (dsOnOk i d).bl = (dsDuring i d).bl := by
  cases i <;> rfl

/-- Settles O43: a reset leaves no trace, a refusal adds nothing to it, and an instruction of the host writes bytes with
the backlight setting it transmits with, which is the `DS.BL` it leaves. -/
theorem backlightBitInEveryByte : Obligations.BacklightBitInEveryByte := by
  intro s t h htrace
  obtain ⟨hw, rfl | ⟨u, rfl, -⟩ | ⟨-, ⟨st, rfl, -⟩ | ⟨i, hhost, he, hi⟩⟩⟩ := step_cases h
  · exact ⟨[], by simp⟩
  · exact absurd rfl htrace
  · exact ⟨[], by simp⟩
  · obtain ⟨new, hnew, hsub⟩ := new_writes_of_executes he hi
    have hbl : t.adapter.ds.bl = (dsDuring i s.adapter.ds).bl := by
      rcases ds_of_executes he hi with hds | hds
      · rw [hds, dsOnOk_bl, dropRequest_adapter]
      · rw [hds, dropRequest_adapter]
    have hcarry : WritesCarry s.cfg .bl t.adapter.ds.bl (expansion i (dropRequest s)) :=
      writesCarry_expansion (s := dropRequest s) hw (by decide) hhost fun nib rs => by
        rw [hbl]; exact lineLevel_nibbleByte_bl hw _ nib rs
    exact ⟨new, hnew, fun b hb => hcarry b (hsub b hb)⟩

/-! ## Two runs of one instruction -/

/-- What an instruction commits when it returns OK, read from the state it commits to. -/
def commitOk (i : Instr) (t : State) : State := setMode (modeOnOk i t.adapter.mode) (updateDs (dsOnOk i) t)

/-- Only the commit's value on states with the `MODE` and `DS` the transmission found matters: running events writes
neither. -/
theorem transmit_congr (acts : List Action) {commit commit' : State → State} {s : State}
    (h : ∀ t : State, t.adapter.ds = s.adapter.ds → t.adapter.mode = s.adapter.mode → commit t = commit' t) :
    transmit acts commit s = transmit acts commit' s := by
  rcases run_cases (actionEvents acts) (setSeq 0 s) with hs | ⟨k, hf⟩ | ⟨k, hf⟩
  · obtain ⟨t, ht, ⟨-, hmode, hds, -⟩, -⟩ := perform_success acts (setSeq 0 s) hs
    simp only [transmit, ht, conclude, h t hds hmode]
  · obtain ⟨t, ht, -⟩ := perform_failure acts (setSeq 0 s) k hf
    simp only [transmit, ht, conclude]
  · obtain ⟨t, ht, -⟩ := perform_silence acts (setSeq 0 s) k hf
    simp only [transmit, ht, conclude]

/-- Committing again the `DS` of setBacklight changes nothing. -/
theorem dsOnOk_dsDuring (i : Instr) (d : DisplayState) : dsOnOk i (dsDuring i d) = dsOnOk i d := by
  cases i <;> rfl

/-- An instruction whose checks pass is the transmission of its expansion with `commitOk`. -/
theorem exec_eq_transmit {i : Instr} {s : State} (h : Executes i s) :
    exec i s = .next (transmit (instrActions i s) (commitOk i) (updateDs (dsDuring i) s)) := by
  obtain ⟨commit, he, hcommit⟩ := exec_executes i s h
  rw [he, transmit_congr _ fun t hds hmode => ?_]
  have hds' : t.adapter.ds = dsDuring i s.adapter.ds := hds
  have hmode' : t.adapter.mode = s.adapter.mode := hmode
  simp only [hcommit t hds' hmode', commitOk, updateDs, hds', hmode', dsOnOk_dsDuring]

/-- The updates of single registers that every meaning is made of. -/
inductive RegisterUpdate : (State → State) → Prop
  | mode (m : Mode) : RegisterUpdate (setMode m)
  | dsDuring (i : Instr) : RegisterUpdate (updateDs (dsDuring i))
  | dsOnOk (i : Instr) : RegisterUpdate (updateDs (dsOnOk i))
  | seq (n : Nat) : RegisterUpdate (setSeq n)
  | advance : RegisterUpdate advance
  | delay (n : Nat) : RegisterUpdate (setDelay n)
  | current (v : Byte) (rs : Bool) : RegisterUpdate (setCurrent v rs)
  | nib (x : Byte) : RegisterUpdate (setNib x)
  | outstanding (b : Byte) : RegisterUpdate (setOutstanding b)
  | port (b : Byte) : RegisterUpdate (setPort b)
  | event (e : Event) : RegisterUpdate (logEvent e)
  | answer : RegisterUpdate dropAnswer
  | status (st : Status) : RegisterUpdate (returnStatus st)
  | draw : RegisterUpdate countDraw

/-- A relation between the states of two runs that fixes all an instruction reads and that every register update keeps. -/
structure Simulation (R : State → State → Prop) : Prop where
  cfg : ∀ {s u}, R s u → u.cfg = s.cfg
  mode : ∀ {s u}, R s u → u.adapter.mode = s.adapter.mode
  flags : ∀ {s u}, R s u → ∃ inc shift, u.adapter.ds = { s.adapter.ds with inc := inc, shift := shift }
  answers : ∀ {s u}, R s u → u.env.answers = s.env.answers
  draws : ∀ {s u}, R s u → u.env.draws = s.env.draws
  update : ∀ {f : State → State} {s u}, RegisterUpdate f → R s u → R (f s) (f u)

/-- The expansion of an instruction depends on the configuration and on `DS` without its entry-mode flags. -/
theorem instrActions_congr (i : Instr) {s u : State} {inc shift : Bool} (hcfg : u.cfg = s.cfg)
    (hds : u.adapter.ds = { s.adapter.ds with inc := inc, shift := shift }) : instrActions i u = instrActions i s := by
  simp only [instrActions, hcfg, hds]

/-- Two runs of events got equally far and stand in related states. -/
def Alike (R : State → State → Prop) (a b : Progress × State) : Prop := a.1 = b.1 ∧ R a.2 b.2

namespace Simulation

variable {R : State → State → Prop} {s u : State}

theorem memWrite (sim : Simulation R) (b : Byte) (h : R s u) :
    Alike R (Machine.memWrite b s) (Machine.memWrite b u) := by
  simp only [Machine.memWrite, sim.answers h]
  split
  · exact ⟨rfl, sim.update .advance (sim.update (.port b) (sim.update (.event _) (sim.update .answer h)))⟩
  · exact ⟨rfl, sim.update (.event _) (sim.update .answer h)⟩
  · exact ⟨rfl, sim.update (.outstanding b) (sim.update .answer h)⟩
  · exact ⟨rfl, sim.update (.outstanding b) h⟩

theorem delayFor (sim : Simulation R) (t : Nat) (h : R s u) : R (Machine.delayFor t s) (Machine.delayFor t u) := by
  simp only [Machine.delayFor, sim.cfg h]
  split
  · exact h
  · exact sim.update .advance (sim.update (.event _) (sim.update (.delay 0) (sim.update (.delay _) h)))

theorem perform (sim : Simulation R) (acts : List Action) (h : R s u) :
    Alike R (Machine.perform acts s) (Machine.perform acts u) := by
  induction acts generalizing s u with
  | nil => exact ⟨rfl, h⟩
  | cons a as ih =>
    cases a with
    | current v rs => exact ih (sim.update (.current v rs) h)
    | nib x => exact ih (sim.update (.nib x) h)
    | delay t => exact ih (sim.delayFor t h)
    | write b =>
      obtain ⟨hprogress, hrel⟩ := sim.memWrite b h
      simp only [Machine.perform]
      generalize Machine.memWrite b s = ps at hprogress hrel ⊢
      generalize Machine.memWrite b u = pu at hprogress hrel ⊢
      obtain ⟨p, s'⟩ := ps
      obtain ⟨q, u'⟩ := pu
      obtain rfl : p = q := hprogress
      cases p with
      | done => exact ih hrel
      | failed => exact ⟨rfl, hrel⟩
      | waiting => exact ⟨rfl, hrel⟩

theorem raise (sim : Simulation R) (e : Error) (h : R s u) : R (Machine.raise e s) (Machine.raise e u) := by
  cases e with
  | transportError =>
    simp only [Machine.raise, sim.draws h]
    exact sim.update (.status _) (sim.update (.mode _) (sim.update .draw (sim.update (.port _) h)))
  | notInitializedError => exact sim.update (.status _) h
  | invalidArgument => exact sim.update (.status _) h

theorem commitOk (sim : Simulation R) (i : Instr) (h : R s u) : R (Machine.commitOk i s) (Machine.commitOk i u) := by
  simp only [Machine.commitOk, sim.mode h]
  exact sim.update (.mode _) (sim.update (.dsOnOk i) h)

theorem conclude (sim : Simulation R) (i : Instr) {a b : Progress × State} (h : Alike R a b) :
    R (Machine.conclude (Machine.commitOk i) a) (Machine.conclude (Machine.commitOk i) b) := by
  obtain ⟨p, s⟩ := a
  obtain ⟨q, u⟩ := b
  obtain ⟨hprogress, hrel⟩ := h
  obtain rfl : p = q := hprogress
  cases p with
  | done => exact sim.update (.status .ok) (sim.commitOk i hrel)
  | failed => exact sim.raise .transportError hrel
  | waiting => exact hrel

theorem transmit (sim : Simulation R) (acts : List Action) (i : Instr) (h : R s u) :
    R (Machine.transmit acts (Machine.commitOk i) s) (Machine.transmit acts (Machine.commitOk i) u) :=
  sim.conclude i (sim.perform acts (sim.update (.seq 0) h))

/-- The checks of R195 pass in both runs or in neither. -/
theorem executes (sim : Simulation R) {i : Instr} (h : R s u) (he : Executes i s) : Executes i u := by
  rw [Executes, sim.mode h, sim.cfg h]; exact he

/-- The same instruction from related states ends in related states. -/
theorem exec (sim : Simulation R) (i : Instr) (h : R s u) :
    ∃ t v, Machine.exec i s = .next t ∧ Machine.exec i u = .next v ∧ R t v := by
  rcases checks_cases i s with hr | ⟨hn, hm⟩ | ⟨-, hm, ha⟩ | he
  · exact ⟨_, _, exec_reserved i s hr, exec_reserved i u hr, sim.update (.status _) h⟩
  · exact ⟨_, _, exec_notReady i s hn hm, exec_notReady i u hn (by rwa [sim.mode h]), sim.update (.status _) h⟩
  · exact ⟨_, _, exec_badArgument i s hm ha,
      exec_badArgument i u (by rwa [sim.mode h]) (by rwa [sim.cfg h]), sim.update (.status _) h⟩
  · obtain ⟨inc, shift, hds⟩ := sim.flags h
    refine ⟨_, _, exec_eq_transmit he, exec_eq_transmit (sim.executes h he), ?_⟩
    rw [instrActions_congr i (sim.cfg h) hds]
    exact sim.transmit _ i (sim.update (.dsDuring i) h)

end Simulation

/-! ## What no instruction reads -/

/-- The state with `PORT`, the working registers, `SEQ`, `DELAY` and the entry-mode flags blanked out. -/
def hide (s : State) : State :=
  { s with
    port := 0
    adapter := { s.adapter with
      curb := 0, nib := 0, rssel := false, seq := 0, delay := 0
      ds := { s.adapter.ds with inc := false, shift := false } } }

theorem hide_updateDs_dsDuring (i : Instr) (s : State) :
    hide (updateDs (dsDuring i) s) = hide (updateDs (dsDuring i) (hide s)) := by
  cases i <;> rfl

theorem hide_updateDs_dsOnOk (i : Instr) (s : State) :
    hide (updateDs (dsOnOk i) s) = hide (updateDs (dsOnOk i) (hide s)) := by
  cases i <;> rfl

/-- States alike but for the hidden registers run alike: a hidden register is overwritten or left, never read (R21, R22,
R25, R26, R31). -/
theorem simulation_hide : Simulation fun s u => hide s = hide u where
  cfg h := (congrArg State.cfg h).symm
  mode h := (congrArg (fun s : State => s.adapter.mode) h).symm
  flags {s u} h := by
    have hds : (hide s).adapter.ds = (hide u).adapter.ds := by rw [h]
    injection hds with _ _ hdisp hcur hblink hbl
    exact ⟨u.adapter.ds.inc, u.adapter.ds.shift, by simp only [hdisp, hcur, hblink, hbl]⟩
  answers h := (congrArg (fun s : State => s.env.answers) h).symm
  draws h := (congrArg (fun s : State => s.env.draws) h).symm
  update hf h := by
    cases hf with
    | dsDuring i => rw [hide_updateDs_dsDuring, h, ← hide_updateDs_dsDuring]
    | dsOnOk i => rw [hide_updateDs_dsOnOk, h, ← hide_updateDs_dsOnOk]
    | seq | advance | delay | current | nib | port => exact h
    | mode m => exact congrArg (setMode m) h
    | outstanding b => exact congrArg (setOutstanding b) h
    | event e => exact congrArg (logEvent e) h
    | answer => exact congrArg dropAnswer h
    | status st => exact congrArg (returnStatus st) h
    | draw => exact congrArg countDraw h

/-- Settles O45: the two states are alike once the hidden registers are blanked out, so the instruction ends alike. -/
theorem hiddenRegistersAreNotRead : Obligations.HiddenRegistersAreNotRead := by
  intro i s t port curb nib rssel inc shift seq delay h
  obtain ⟨t', u, ht, hu, hrel⟩ := simulation_hide.exec i (s := s) (u := { s with
    port := port
    adapter := { s.adapter with
      curb := curb, nib := nib, rssel := rssel, seq := seq, delay := delay
      ds := { s.adapter.ds with inc := inc, shift := shift } } }) rfl
  obtain rfl : t = t' := by simpa [h] using ht
  have visible {α : Type} (f : State → α) : f (hide u) = f (hide t) := congrArg f hrel.symm
  exact ⟨u, hu, visible State.env, visible (·.adapter.mode), visible (·.adapter.outstanding),
    visible (·.adapter.ds.disp), visible (·.adapter.ds.cur), visible (·.adapter.ds.blink), visible (·.adapter.ds.bl)⟩

/-- The state with a trace and statuses recorded before its own. -/
def withPast (trace : List Event) (statuses : List Status) (s : State) : State :=
  { s with env := { s.env with trace := trace ++ s.env.trace, statuses := statuses ++ s.env.statuses } }

/-- A state with a longer past runs alike: the record is only appended to (R8, R36). -/
theorem simulation_withPast (trace : List Event) (statuses : List Status) :
    Simulation fun s u => u = withPast trace statuses s where
  cfg h := by rw [h]; rfl
  mode h := by rw [h]; rfl
  flags {s _} h := ⟨s.adapter.ds.inc, s.adapter.ds.shift, by rw [h]; rfl⟩
  answers h := by rw [h]; rfl
  draws h := by rw [h]; rfl
  update hf h := by
    subst h
    cases hf with
    | event e => simp [withPast, logEvent]
    | status st => simp [withPast, returnStatus]
    | mode | dsDuring | dsOnOk | seq | advance | delay | current | nib | outstanding | port | answer | draw => rfl

/-- Settles O46: both runs are the run from an empty record with a past before it, so what that run records is new in
both. -/
theorem recordIsNotRead : Obligations.RecordIsNotRead := by
  intro i s t trace statuses h
  have run (past : List Event) (sts : List Status) := (simulation_withPast past sts).exec i
    (s := { s with env := { s.env with trace := [], statuses := [] } }) rfl
  obtain ⟨t₀, t', ht₀, ht', rfl⟩ := run s.env.trace s.env.statuses
  obtain ⟨u₀, u', hu₀, hu', rfl⟩ := run trace statuses
  obtain rfl : t₀ = u₀ := by simpa [ht₀] using hu₀
  simp only [withPast, List.append_nil] at ht' hu'
  obtain rfl : t = withPast s.env.trace s.env.statuses t₀ := by simpa [h, withPast] using ht'
  exact ⟨t₀.env.trace, t₀.env.statuses, rfl, rfl, hu'⟩

end Sys2Proof.Machine
end

section
/-! PROOFS. The adapter's writes as the transport and the display see them: a port byte is one write (R52), a write that
fails or is never answered ends its instruction there (R52, R66, R209), and every pulse the display latches is clean and
carries the nibble that was sent (R62 to R64). -/

namespace Sys2Proof.Machine

/-! ## One write of an instruction -/

/-- Settles O25: the operation's one write is the next the transport answers, with success, so the write primitive's
success case is the whole operation (R52). -/
theorem portbyteCompletes : Obligations.PortbyteCompletes := by
  intro s nib bl en rs h
  obtain ⟨as, ha, -⟩ := transportSucceeds_succ h
  have hwrite := memWrite_success (s := setSeq 0 s) (b := portByte s.cfg nib rs bl en) ha
  simp only [exec, execPortbyte, transmit, perform, hwrite, conclude]
  rfl

/-- Settles O31: an instruction that executes transmits its expansion, and `transmit_failure` says how a transmission
ends whose write `k` fails. -/
theorem failedWriteFaults : Obligations.FailedWriteFaults := by
  intro i s k he hf
  have hfaults := transmit_failure (instrActions i s) (commitOk i) (updateDs (dsDuring i) s) k
    (by rwa [actionEvents_instrActions])
  rw [actionEvents_instrActions] at hfaults
  exact ⟨_, exec_eq_transmit he, hfaults⟩

/-- Settles O32: an instruction that executes transmits its expansion, and `transmit_silence` says how a transmission
ends whose write `k` is never answered. -/
theorem unansweredWriteHangs : Obligations.UnansweredWriteHangs := by
  intro i s k he hs
  have hhangs := transmit_silence (instrActions i s) (commitOk i) (updateDs (dsDuring i) s) k
    (by rwa [actionEvents_instrActions])
  rw [actionEvents_instrActions] at hhangs
  exact ⟨_, exec_eq_transmit he, hhangs⟩

/-! ## The Enable line -/

/-- The observer's EN bit is the level of the Enable line. -/
theorem enableSet_eq (c : Config) (b : Byte) : enableSet c b = lineLevel c b .en := rfl

/-- A nibble byte has Enable low (R111). -/
theorem enableSet_nibbleByte {c : Config} (hw : configWf c = true) (bl : Bool) (nib : Nibble) (rs : Bool) :
    enableSet c (nibbleByte c bl nib rs) = false := by
  simp [enableSet_eq, nibbleByte, portByte, lineLevel_or, lineLevel_atRole hw]

/-- The first write of a pulse has Enable high (R112). -/
@[simp] theorem enableSet_or_enableMask (c : Config) (x : Byte) : enableSet c (x ||| enableMask c) = true := by
  simp [enableSet, enableMask, getLsbD_roleMask _ _ _ (pos_lt c .en)]

/-- Lowering Enable lowers its line. -/
@[simp] theorem enableSet_and_not_enableMask (c : Config) (b : Byte) : enableSet c (b &&& ~~~enableMask c) = false := by
  simp [enableSet, enableMask, getLsbD_roleMask _ _ _ (pos_lt c .en)]

/-! ## The event lists of the host's instructions are trains of pulses -/

/-- The event lists an operation of the host is made of while the backlight setting is `bl`: delays, pulses of nibble
bytes, and with `BL_IMMEDIATE` single nibble bytes (R110, R118 (b), R169). -/
inductive PulseTrain (c : Config) (bl : Bool) : List Event → Prop
  | nil : PulseTrain c bl []
  | idle (t : Nat) : PulseTrain c bl (idle t)
  | pulse (nib : Nibble) (rs : Bool) : PulseTrain c bl (pulseEvents c (nibbleByte c bl nib rs))
  | single (nib : Nibble) (rs : Bool) (h : c.blImmediate = true) : PulseTrain c bl [.W (nibbleByte c bl nib rs)]
  | append {a b : List Event} (ha : PulseTrain c bl a) (hb : PulseTrain c bl b) : PulseTrain c bl (a ++ b)

section
variable {c : Config} {bl : Bool}

theorem pulseTrain_flatMap {α : Type} {f : α → List Event} (l : List α) (h : ∀ a, PulseTrain c bl (f a)) :
    PulseTrain c bl (l.flatMap f) := by
  induction l with
  | nil => exact .nil
  | cons x xs ih => exact (h x).append ih

theorem pulseTrain_byteEvents (v : Byte) (rs : Bool) : PulseTrain c bl (byteEvents c bl v rs) :=
  (PulseTrain.pulse _ rs).append (.pulse _ rs)

theorem pulseTrain_commandEvents (cmd : Byte) : PulseTrain c bl (commandEvents c bl cmd) :=
  (pulseTrain_byteEvents cmd false).append (.idle _)

theorem pulseTrain_dataEvents (value : Byte) : PulseTrain c bl (dataEvents c bl value) :=
  (pulseTrain_byteEvents value true).append (.idle _)

theorem pulseTrain_handshakeEvents : PulseTrain c bl (handshakeEvents c bl) := by
  unfold handshakeEvents
  split
  · exact .nil
  · exact ((PulseTrain.pulse _ false).append (.idle _)).append
      (pulseTrain_flatMap _ fun m => (PulseTrain.pulse m false).append (.idle _))

theorem pulseTrain_initEvents : PulseTrain c bl (initEvents c bl) := by
  have send {es : List Event} (h : PulseTrain c bl es) (cmd : Byte) (t : Nat) :
      PulseTrain c bl (es ++ byteEvents c bl cmd false ++ idle t) :=
    (h.append (pulseTrain_byteEvents cmd false)).append (.idle t)
  have hshake := (PulseTrain.idle c.times.powerup).append (pulseTrain_handshakeEvents (c := c) (bl := bl))
  exact send (send (send (send hshake _ _) _ _) _ _) _ _

theorem pulseTrain_backlightEvents (on : Bool) : PulseTrain c on (backlightEvents c on) := by
  unfold backlightEvents
  split
  · exact .single 0 false ‹_›
  · exact .nil

end

/-- The event list of every instruction of the host is a train of pulses with the backlight setting it transmits with. -/
theorem pulseTrain_expansion {i : Instr} (hi : isHostInstr i = true) (s : State) :
    PulseTrain s.cfg (dsDuring i s.adapter.ds).bl (expansion i s) := by
  cases i with
  | init => exact pulseTrain_initEvents
  | cmd | clear | home | setcur | dispvis | curvis | curblink => exact pulseTrain_commandEvents _
  | data | wrchar => exact pulseTrain_dataEvents _
  | backlight on => exact pulseTrain_backlightEvents on
  | glyph index rows =>
    exact (pulseTrain_commandEvents _).append (pulseTrain_flatMap rows pulseTrain_dataEvents)
  | reservedC | reservedD | reservedE | reservedF => exact .nil
  | lcdClear | lcdHome | lcdEntrymode | lcdDispctl | lcdShift | lcdFuncset | lcdSetcgram | lcdSetddram | lcdNone
  | portbyte => cases hi

/-! ## Every trace is made of the pairs of R118 (b) -/

/-- A pulse is one whole pair. -/
theorem pairing_pulseEvents {c : Config} {x : Byte} (hx : enableSet c x = false) :
    pairing c none (pulseEvents c x) = some none := by
  simp [pulseEvents, pairing_append, pairing, or_and_not_enableMask c x hx]

/-- A train of pulses is made of whole pairs. -/
theorem pairing_pulseTrain {c : Config} {bl : Bool} {es : List Event} (hw : configWf c = true)
    (h : PulseTrain c bl es) : pairing c none es = some none := by
  induction h with
  | nil => rfl
  | idle t => exact pairing_idle c none t
  | pulse nib rs => exact pairing_pulseEvents (enableSet_nibbleByte hw bl nib rs)
  | single nib rs h => simp [pairing, enableSet_nibbleByte hw, h]
  | append _ _ iha ihb => rw [pairing_append, iha, Option.bind_some, ihb]

/-- An instruction of the host adds whole pairs to a trace of whole pairs, but for the pair a failed write ends early or
an unanswered one leaves open. -/
theorem paired_of_executes {i : Instr} {s t : State} (hw : configWf s.cfg = true) (hi : isHostInstr i = true)
    (he : Executes i s) (h : exec i s = .next t) (hs : pairing s.cfg none s.env.trace = some none) : Paired t := by
  have hnew : pairing s.cfg none (expansion i s) = some none := pairing_pulseTrain hw (pulseTrain_expansion hi s)
  have hx := noFailure_expansion i s
  obtain ⟨u, hu, hends⟩ := exec_cases i s he
  obtain rfl : u = t := by simpa [hu] using h
  rcases hends with ⟨-, hcfg, -, -, -, -, -, -, henv⟩ | ⟨k, ⟨hk, -⟩, hcfg, -, -, -, -, -, -, henv⟩
    | ⟨k, ⟨hk, -⟩, hcfg, -, -, -, -, hout, -, henv⟩
  · left
    simp [hcfg, henv, pairing_append, hs, hnew]
  · left
    simp [hcfg, henv, pairing_append, hs, pairing_cutAtWrite s.cfg _ hx none k hnew hk]
  · rcases pairing_beforeWrite s.cfg _ hx none k hnew hk with hclosed | ⟨x, hopen, hnext⟩
    · left
      simp [hcfg, henv, pairing_append, hs, hclosed]
    · right
      exact ⟨x, by simp [hcfg, henv, pairing_append, hs, hopen], by rw [hout, hnext]⟩

/-- Between operations no pair is open. -/
theorem Paired.pairing_of_idle {s : State} (h : Paired s) (ho : s.adapter.outstanding = none) :
    pairing s.cfg none s.env.trace = some none := by
  rcases h with h | ⟨x, -, hx⟩
  · exact h
  · rw [ho] at hx; cases hx

/-- A step keeps the pairs: a reset leaves no trace, a refusal adds nothing to it, and an instruction starts only where
no pair is open. -/
theorem paired_of_step {s t : State} (hs : Paired s) (h : step s = .next t) : Paired t := by
  obtain ⟨hw, rfl | ⟨u, rfl, -⟩ | ⟨ho, ⟨st, rfl, -⟩ | ⟨i, hi, he, hx⟩⟩⟩ := step_cases h
  · exact hs
  · exact .inl rfl
  · exact hs
  · exact paired_of_executes (s := dropRequest s) hw hi he hx (hs.pairing_of_idle ho)

/-! ## A paired trace has clean pulses -/

/-- The run of EN-high writes the observer has read when the byte `x` must still be written to complete a pair. -/
def openRun (c : Config) : Option Byte → List Byte
  | none => []
  | some x => [x ||| enableMask c]

/-- What is left to read of a paired trace has only clean pulses: a run is one write, and the byte that ends it as a pulse
is that write with Enable low. -/
theorem cleanPulse_of_pairing (c : Config) (es : List Event) {p : Option Byte}
    (hp : ∀ x, p = some x → enableSet c x = false) (h : pairing c p es ≠ none) : ∀ q ∈ pulsesFrom c (openRun c p) es, cleanPulse c q = true := by
  induction es generalizing p with
  | nil => simp [pulsesFrom]
  | cons e es ih =>
    have hclosed (h : pairing c none es ≠ none) : ∀ q ∈ pulsesFrom c [] es, cleanPulse c q = true :=
      ih (p := none) (by simp) h
    cases e with
    | D t =>
      rw [pulsesFrom]
      exact ih hp (by cases p <;> simpa only [pairing] using h)
    | X b =>
      rw [pulsesFrom]
      refine hclosed fun hn => h ?_
      cases p <;> simp [pairing, hn]
    | W b =>
      cases p with
      | none =>
        by_cases hb : enableSet c b = true
        · have hrun : [b] = openRun c (some (b &&& ~~~enableMask c)) := by
            rw [openRun, and_not_or_enableMask c b hb]
          simp only [pairing, hb, if_true] at h
          simp only [openRun, pulsesFrom, hb, if_true, List.nil_append]
          rw [hrun]
          exact ih (by simp) h
        · simp only [openRun, pulsesFrom, hb, Bool.false_eq_true, if_false, if_true]
          refine hclosed fun hn => h ?_
          simp [pairing, hb, hn]
      | some x =>
        have hx : enableSet c x = false := hp x rfl
        obtain rfl : b = x := by by_contra hne; simp [pairing, hne] at h
        simp only [pairing, if_true] at h
        simp only [openRun, pulsesFrom, hx, Bool.false_eq_true, if_false, List.cons_ne_nil, List.forall_mem_cons]
        exact ⟨by simp [cleanPulse, hx], hclosed h⟩

/-- The pulses of a paired trace are clean (R63). -/
theorem Paired.pulsesClean {s : State} (h : Paired s) : PulsesClean s := by
  refine cleanPulse_of_pairing s.cfg s.env.trace (p := none) (by simp) ?_
  rcases h with h | ⟨x, h, -⟩
  · simp [h]
  · simp [h]

/-- Settles O39: a step keeps the trace paired, and the pulses of a paired trace are clean. -/
theorem stepKeepsPulsesClean : Obligations.StepKeepsPulsesClean := by
  intro s t hs h
  exact (paired_of_step hs h).pulsesClean

/-! ## What the display samples -/

@[simp] theorem samples_nil (c : Config) : samples c [] = [] := rfl

/-- A delay is not seen (R62). -/
@[simp] theorem pulsesFrom_idle_append (c : Config) (run : List Byte) (t : Nat) (es : List Event) :
    pulsesFrom c run (idle t ++ es) = pulsesFrom c run es := by
  unfold idle
  split
  · rfl
  · rfl

@[simp] theorem samples_idle_append (c : Config) (t : Nat) (es : List Event) :
    samples c (idle t ++ es) = samples c es := by
  simp only [samples, pulses, pulsesFrom_idle_append]

@[simp] theorem samples_idle (c : Config) (t : Nat) : samples c (idle t) = [] := by
  rw [← List.append_nil (idle t), samples_idle_append, samples_nil]

/-- The observer reads a pulse as one run of one write, and its ending (R62, R112). -/
theorem pulses_pulseEvents_append {c : Config} {x : Byte} (hx : enableSet c x = false) (es : List Event) :
    pulses c (pulseEvents c x ++ es) = ⟨[x ||| enableMask c], x⟩ :: pulses c es := by
  simp [pulses, pulseEvents, pulsesFrom, hx]

/-- The sample of a nibble's pulse is its register select and the nibble (R57, R62). -/
theorem sampleOf_nibbleByte {c : Config} (hw : configWf c = true) (bl : Bool) (nib : Nibble) (rs : Bool) :
    sampleOf c ⟨[nibbleByte c bl nib rs ||| enableMask c], nibbleByte c bl nib rs⟩ = ⟨rs, nib⟩ := by
  have hjoin : BitVec.ofBool (nib.getLsbD 3) ++ BitVec.ofBool (nib.getLsbD 2) ++ BitVec.ofBool (nib.getLsbD 1)
      ++ BitVec.ofBool (nib.getLsbD 0) = nib := by
    revert nib; decide
  simpa [sampleOf, lineLevel_or_enableMask hw, nibbleByte, portByte, lineLevel_or, lineLevel_atRole hw] using hjoin

/-- The display samples a nibble's pulse once (R62). -/
theorem samples_pulseEvents_append {c : Config} (hw : configWf c = true) (bl : Bool) (nib : Nibble) (rs : Bool)
    (es : List Event) :
    samples c (pulseEvents c (nibbleByte c bl nib rs) ++ es) = ⟨rs, nib⟩ :: samples c es := by
  have hen := enableSet_nibbleByte hw bl nib rs
  simp [samples, pulses_pulseEvents_append hen, cleanPulse, hen, sampleOf_nibbleByte hw]

/-- The display samples a byte's two nibbles, high first (R56, R113). -/
theorem samples_byteEvents_append {c : Config} (hw : configWf c = true) (bl : Bool) (v : Byte) (rs : Bool)
    (es : List Event) :
    samples c (byteEvents c bl v rs ++ es) = ⟨rs, highNibble v⟩ :: ⟨rs, lowNibble v⟩ :: samples c es := by
  simp [byteEvents, samples_pulseEvents_append hw]

/-- The nibbles of a byte join to it (R56, R116 (b)). -/
@[simp] theorem joinNibbles_nibbles (v : Byte) : joinNibbles (highNibble v) (lowNibble v) = v := by
  apply BitVec.eq_of_getLsbD_eq
  intro i hi
  by_cases h : i < 4
  · simp [joinNibbles, highNibble, lowNibble, h, hi]
  · have hhigh : i - 4 < 4 := by omega
    have hpos : 4 + (i - 4) = i := by omega
    simp [joinNibbles, highNibble, lowNibble, h, hi, hhigh, hpos]

/-- Settles O51: the two samples of the byte's pulses, which the byte view joins. -/
theorem displayReceivesTheByte : Obligations.DisplayReceivesTheByte := by
  intro c bl v rs delay hw
  have hsamples : samples c (byteEvents c bl v rs ++ idle delay) = [⟨rs, highNibble v⟩, ⟨rs, lowNibble v⟩] := by
    rw [samples_byteEvents_append hw, samples_idle]
  exact ⟨hsamples, by simp [hsamples, byteView]⟩

/-- The display samples the raw nibbles of INIT in order, with RS = 0 (R99, R114). -/
theorem samples_handshakeEvents_append {c : Config} (hw : configWf c = true) (bl : Bool) (es : List Event) :
    samples c (handshakeEvents c bl ++ es) = c.lcdi.initNibbles.map (Sample.mk false) ++ samples c es := by
  have hrest (ns : List Nibble) (t : Nat) (es : List Event) :
      samples c ((ns.flatMap fun m => pulseEvents c (nibbleByte c bl m false) ++ idle t) ++ es)
        = ns.map (Sample.mk false) ++ samples c es := by
    induction ns with
    | nil => rfl
    | cons m ms ih => simpa [samples_pulseEvents_append hw] using ih
  unfold handshakeEvents
  split
  next hn => rw [hn]; rfl
  next n ns hn => simpa [hn, samples_pulseEvents_append hw] using hrest ns _ es

/-- Settles O52: the raw nibbles are four samples, and each of the four commands after them is a byte of the view. -/
theorem displayViewOfInit : Obligations.DisplayViewOfInit := by
  intro c bl hw hl
  have hdisp : dispCtl c true false false = 0x0C := by simp only [dispCtl, hl]; decide
  have hentry : entryMode c true false = 0x06 := by simp only [entryMode, hl]; decide
  have hsamples : samples c (initEvents c bl) = [⟨false, 3⟩, ⟨false, 3⟩, ⟨false, 3⟩, ⟨false, 2⟩,
      ⟨false, highNibble (funcSet c)⟩, ⟨false, lowNibble (funcSet c)⟩,
      ⟨false, highNibble 0x0C⟩, ⟨false, lowNibble 0x0C⟩,
      ⟨false, highNibble 0x01⟩, ⟨false, lowNibble 0x01⟩, ⟨false, highNibble 0x06⟩, ⟨false, lowNibble 0x06⟩] := by
    simp [initEvents, samples_handshakeEvents_append hw, samples_byteEvents_append hw, hdisp, hentry, hl, defaultLcdi]
  rw [hsamples]
  simp [byteView]

end Sys2Proof.Machine
end

section
/-! PROOFS. The three encodings both ways (R80 to R98), which host words are legal (R88, R100), and the assembly forms
of the host's operations (R101). -/

namespace Sys2Proof

open Machine

/-! ## Decoding what the encoder writes -/

@[simp] theorem noOperand_hostWord (op : BitVec 4) (i : Instr) : noOperand (hostWord op 0#4 0#8 0#64) i = .ok i := by
  simp [noOperand]

@[simp] theorem byteOperand_byteWord (op : BitVec 4) (b : Byte) (f : Byte → Instr) :
    byteOperand (byteWord op b) f = .ok (f b) := by
  simp [byteOperand, byteWord]

@[simp] theorem boolOperand_boolWord (op : BitVec 4) (v : Bool) (f : Bool → Instr) :
    boolOperand (boolWord op v) f = .ok (f v) := by
  have hhigh : ((BitVec.ofBool v).setWidth 8 : Byte).extractLsb' 1 7 = 0 := by revert v; decide
  simp [boolOperand, boolWord, hhigh, -BitVec.getLsbD_setWidth]

@[simp] theorem cursorOperand_hostWord (op row : BitVec 4) (column : Byte) :
    cursorOperand (hostWord op row column 0#64) = .ok (.setcur row column) := by
  simp [cursorOperand]

@[simp] theorem glyphOperand_hostWord (op index : BitVec 4) (pl : BitVec 64) :
    glyphOperand (hostWord op index 0#8 pl) = .ok (.glyph index (glyphRows pl)) := by
  simp [glyphOperand]

@[simp] theorem hostOp_byteWord (op : BitVec 4) (b : Byte) : hostOp (byteWord op b) = op := hostOp_hostWord op 0 b 0

@[simp] theorem hostOp_boolWord (op : BitVec 4) (v : Bool) : hostOp (boolWord op v) = op := hostOp_hostWord op 0 _ 0

/-- Settles O1: the code selects the row, and the row reads back the fields the encoder wrote (host words), or the few
operand bits of the byte are checked at every value (LCD instruction bytes, port bytes). -/
theorem decodeOfEncodeIsInstr : Obligations.DecodeOfEncodeIsInstr := by
  intro i hi
  cases i with
  | init | clear | home | cmd | data | wrchar | setcur | dispvis | curvis | curblink | backlight =>
    simp [encode, decode, decodeHost]
  | glyph index rows =>
    have hrows : glyphRows (glyphPayload rows) = rows := glyphRows_glyphPayload rows (by simpa [Instr.wf] using hi)
    simp [encode, decode, decodeHost, hrows]
  | reservedC | reservedD | reservedE | reservedF => simp [encode, decode, decodeHost]
  | lcdClear | lcdNone => rfl
  | lcdHome x => cases x <;> rfl
  | lcdEntrymode inc shift => cases inc <;> cases shift <;> rfl
  | lcdDispctl disp cur blink => cases disp <;> cases cur <;> cases blink <;> rfl
  | lcdShift sc rl x => exact congrArg Except.ok (by revert sc rl x; decide)
  | lcdFuncset dl n f x => exact congrArg Except.ok (by revert dl n f x; decide)
  | lcdSetcgram addr => exact congrArg Except.ok (by revert addr; decide)
  | lcdSetddram addr => exact congrArg Except.ok (by revert addr; decide)
  | portbyte nib bl en rs =>
    show decodePort (portbyteByte nib bl en rs) = _
    revert nib bl en rs; decide

/-! ## Encoding what the decoder reads -/

/-- A word whose fields are known is the word of those fields (R84). -/
theorem hostWord_eq_of_fields {w : HostWord} {op a : BitVec 4} {b : Byte} {pl : BitVec 64} (hop : hostOp w = op)
    (ha : hostA w = a) (hb : hostB w = b) (hpl : hostPl w = pl) : hostWord op a b pl = w := by
  rw [← hop, ← ha, ← hb, ← hpl, hostWord_fields]

section
variable {w : HostWord} {op : BitVec 4} {j : Instr} (hop : hostOp w = op)
include hop

theorem word_of_noOperand {i : Instr} (h : noOperand w i = .ok j) : j = i ∧ hostWord op 0 0 0 = w := by
  obtain ⟨hj, ha, hb, hpl⟩ := decode_noOperand h
  exact ⟨hj, hostWord_eq_of_fields hop ha hb hpl⟩

theorem word_of_byteOperand {f : Byte → Instr} (h : byteOperand w f = .ok j) : ∃ b, j = f b ∧ byteWord op b = w := by
  obtain ⟨hj, ha, hpl⟩ := decode_byteOperand h
  exact ⟨_, hj, hostWord_eq_of_fields hop ha rfl hpl⟩

theorem word_of_boolOperand {f : Bool → Instr} (h : boolOperand w f = .ok j) : ∃ v, j = f v ∧ boolWord op v = w := by
  obtain ⟨hj, ha, hhigh, hpl⟩ := decode_boolOperand h
  have hbool (b : Byte) (hb : b.extractLsb' 1 7 = 0) : b = (BitVec.ofBool (b.getLsbD 0)).setWidth 8 := by
    revert b; decide
  exact ⟨_, hj, hostWord_eq_of_fields hop ha (hbool _ hhigh) hpl⟩

theorem word_of_cursorOperand (h : cursorOperand w = .ok j) :
    ∃ row column, j = .setcur row column ∧ hostWord op row column 0 = w := by
  unfold cursorOperand at h
  split at h
  next => cases h
  next hpl => exact ⟨_, _, (Except.ok.inj h).symm, hostWord_eq_of_fields hop rfl rfl (not_not.1 hpl)⟩

theorem word_of_glyphOperand (h : glyphOperand w = .ok j) :
    ∃ index pl, j = .glyph index (glyphRows pl) ∧ hostWord op index 0 pl = w := by
  unfold glyphOperand at h
  split at h
  next => cases h
  next hb => exact ⟨_, _, (Except.ok.inj h).symm, hostWord_eq_of_fields hop rfl (not_not.1 hb) rfl⟩

theorem word_of_reserved : reservedWord op (w.extractLsb' 0 76) = w := by
  rw [← hop, reservedWord_parts]

end

/-- A host word that decodes is the word of the well-formed instruction it decodes to (R85). -/
theorem encode_of_decodeHost {w : HostWord} {i : Instr} (h : decodeHost w = .ok i) :
    i.wf = true ∧ encode i = .host w := by
  have code {n : Nat} (hn : (hostOp w).toNat = n) : hostOp w = BitVec.ofNat 4 n := by
    rw [← hn, BitVec.ofNat_toNat, BitVec.setWidth_eq]
  unfold decodeHost at h
  split at h
  case h_1 hn | h_4 hn | h_5 hn =>
    obtain ⟨rfl, hw⟩ := word_of_noOperand (code hn) h
    exact ⟨rfl, congrArg Code.host hw⟩
  case h_2 hn | h_3 hn | h_7 hn =>
    obtain ⟨b, rfl, hw⟩ := word_of_byteOperand (code hn) h
    exact ⟨rfl, congrArg Code.host hw⟩
  case h_8 hn | h_9 hn | h_10 hn | h_11 hn =>
    obtain ⟨v, rfl, hw⟩ := word_of_boolOperand (code hn) h
    exact ⟨rfl, congrArg Code.host hw⟩
  case h_6 hn =>
    obtain ⟨row, column, rfl, hw⟩ := word_of_cursorOperand (code hn) h
    exact ⟨rfl, congrArg Code.host hw⟩
  case h_12 hn =>
    obtain ⟨index, pl, rfl, hw⟩ := word_of_glyphOperand (code hn) h
    exact ⟨by simp [Instr.wf], by simp only [encode, glyphPayload_glyphRows]; exact congrArg Code.host hw⟩
  case h_13 hn | h_14 hn | h_15 hn =>
    obtain rfl := Except.ok.inj h
    exact ⟨rfl, congrArg Code.host (word_of_reserved (code hn))⟩
  case h_16 =>
    have hlt := (hostOp w).isLt
    have hn : (hostOp w).toNat = 0xF := by simp only [imp_false] at *; omega
    obtain rfl := Except.ok.inj h
    exact ⟨rfl, congrArg Code.host (word_of_reserved (code hn))⟩

/-- Every byte is the LCD instruction byte of the class it decodes to (R89). -/
theorem encode_decodeLcd : ∀ c : Byte, (decodeLcd c).wf = true ∧ encode (decodeLcd c) = .lcd c := by decide

/-- A port byte that decodes has RW clear, and its fields put it together again (R81, R83). -/
theorem encode_of_decodePort {b : Byte} {i : Instr} (h : decodePort b = .ok i) : i.wf = true ∧ encode i = .port b := by
  have hfields : ∀ b : Byte, b.getLsbD 1 = false →
      portbyteByte (b.extractLsb' 4 4) (b.getLsbD 3) (b.getLsbD 2) (b.getLsbD 0) = b := by decide
  unfold decodePort at h
  split at h
  next => cases h
  next hrw =>
    obtain rfl := Except.ok.inj h
    exact ⟨rfl, congrArg Code.port (hfields b (by simpa using hrw))⟩

/-- Settles O2: at each of the three interfaces the fields read from a code put it together again. -/
theorem encodeOfDecodeIsCode : Obligations.EncodeOfDecodeIsCode := by
  intro code i h
  cases code with
  | host w => exact encode_of_decodeHost h
  | lcd c =>
    obtain rfl := Except.ok.inj h
    exact encode_decodeLcd c
  | port b => exact encode_of_decodePort h

/-- Settles O3: the decoder runs on each of the ten words. -/
theorem specWordsDecode : Obligations.SpecWordsDecode := by
  unfold Obligations.SpecWordsDecode; decide

/-! ## Legal and illegal host words (R88, R100) -/

/-- A row of R85 answers `r` for the word `w`: the instruction `i` when the bits of `mask` are zero, and an error when
they are not. -/
def RowReads (w mask : HostWord) (r : Except DecodeError Instr) (i : Instr) : Prop :=
  (w &&& mask = 0 → r = .ok i) ∧ (w &&& mask ≠ 0 → ∃ e, r = .error e)

@[simp] theorem and_fullMask4 (x : BitVec 4) : x &&& 0xF#4 = x := BitVec.and_allOnes

@[simp] theorem and_fullMask8 (x : Byte) : x &&& 0xFF#8 = x := BitVec.and_allOnes

@[simp] theorem and_fullMask64 (x : BitVec 64) : x &&& 0xFFFFFFFFFFFFFFFF#64 = x := BitVec.and_allOnes

/-- A word is zero under a mask that leaves the code out when each operand field is zero under its part of the mask. -/
theorem and_eq_zero_iff_fields (w : HostWord) {mask : HostWord} {a : BitVec 4} {b : Byte} {pl : BitVec 64}
    (hm : mask = hostWord 0 a b pl) :
    w &&& mask = 0 ↔ hostA w &&& a = 0#4 ∧ hostB w &&& b = 0#8 ∧ hostPl w &&& pl = 0#64 := by
  rw [hm, and_hostWord_eq_zero]; simp

/-- The bits above `b[0]` are zero under their mask when they are zero (R86). -/
theorem and_boolMask_eq_zero_iff : ∀ b : Byte, b &&& 0xFE#8 = 0#8 ↔ b.extractLsb' 1 7 = 0#7 := by decide

section
variable (w : HostWord)

theorem noOperand_reads (i : Instr) : RowReads w 0x0FFFFFFFFFFFFFFFFFFF (noOperand w i) i := by
  rw [RowReads, ne_eq, and_eq_zero_iff_fields w (a := 0xF#4) (b := 0xFF#8) (pl := 0xFFFFFFFFFFFFFFFF#64) (by decide),
    noOperand]
  split_ifs <;> simp_all

theorem byteOperand_reads (f : Byte → Instr) :
    RowReads w 0x0F00FFFFFFFFFFFFFFFF (byteOperand w f) (f (hostB w)) := by
  rw [RowReads, ne_eq, and_eq_zero_iff_fields w (a := 0xF#4) (b := 0#8) (pl := 0xFFFFFFFFFFFFFFFF#64) (by decide),
    byteOperand]
  split_ifs <;> simp_all

theorem boolOperand_reads (f : Bool → Instr) :
    RowReads w 0x0FFEFFFFFFFFFFFFFFFF (boolOperand w f) (f ((hostB w).getLsbD 0)) := by
  rw [RowReads, ne_eq, and_eq_zero_iff_fields w (a := 0xF#4) (b := 0xFE#8) (pl := 0xFFFFFFFFFFFFFFFF#64) (by decide),
    and_boolMask_eq_zero_iff, boolOperand]
  split_ifs <;> simp_all

theorem cursorOperand_reads :
    RowReads w 0x0000FFFFFFFFFFFFFFFF (cursorOperand w) (.setcur (hostA w) (hostB w)) := by
  rw [RowReads, ne_eq, and_eq_zero_iff_fields w (a := 0#4) (b := 0#8) (pl := 0xFFFFFFFFFFFFFFFF#64) (by decide),
    cursorOperand]
  split_ifs <;> simp_all

theorem glyphOperand_reads :
    RowReads w 0x00FF0000000000000000 (glyphOperand w) (.glyph (hostA w) (glyphRows (hostPl w))) := by
  rw [RowReads, ne_eq, and_eq_zero_iff_fields w (a := 0#4) (b := 0xFF#8) (pl := 0#64) (by decide),
    glyphOperand]
  split_ifs <;> simp_all

/-- Every code below 0xC is a row of R85, whose mask is the table's. -/
theorem decodeHost_reads (h : (hostOp w).toNat < 0xC) :
    ∃ i, i.wf = true ∧ isReserved i = false ∧ RowReads w (mustBeZero (hostOp w)) (decodeHost w) i := by
  unfold decodeHost mustBeZero
  generalize (hostOp w).toNat = n at h
  interval_cases n
  · exact ⟨_, rfl, rfl, noOperand_reads w _⟩
  · exact ⟨_, rfl, rfl, byteOperand_reads w _⟩
  · exact ⟨_, rfl, rfl, byteOperand_reads w _⟩
  · exact ⟨_, rfl, rfl, noOperand_reads w _⟩
  · exact ⟨_, rfl, rfl, noOperand_reads w _⟩
  · exact ⟨_, rfl, rfl, cursorOperand_reads w⟩
  · exact ⟨_, rfl, rfl, byteOperand_reads w _⟩
  · exact ⟨_, rfl, rfl, boolOperand_reads w _⟩
  · exact ⟨_, rfl, rfl, boolOperand_reads w _⟩
  · exact ⟨_, rfl, rfl, boolOperand_reads w _⟩
  · exact ⟨_, rfl, rfl, boolOperand_reads w _⟩
  · exact ⟨_, by simp [Instr.wf], rfl, glyphOperand_reads w⟩

/-- Every code from 0xC on is a reserved one (R88). -/
theorem decodeHost_reserved (h : 0xC ≤ (hostOp w).toNat) : ∃ i, decodeHost w = .ok i ∧ isReserved i = true := by
  have hlt := (hostOp w).isLt
  unfold decodeHost
  generalize (hostOp w).toNat = n at h hlt
  interval_cases n
  · exact ⟨_, rfl, rfl⟩
  · exact ⟨_, rfl, rfl⟩
  · exact ⟨_, rfl, rfl⟩
  · exact ⟨_, rfl, rfl⟩

end

/-- Settles O4: a code below 0xC is a row that reads an instruction exactly when its must-be-zero bits are zero, and a
code from 0xC on is illegal and reserved. -/
theorem wordIsLegalOrIllegal : Obligations.WordIsLegalOrIllegal := by
  intro w
  have hillegal : IllegalWord w ↔ 0xC ≤ (hostOp w).toNat ∨ w &&& mustBeZero (hostOp w) ≠ 0 := Iff.rfl
  rw [hillegal]
  by_cases hop : 0xC ≤ (hostOp w).toNat
  · exact ⟨fun h => absurd (.inl hop) h, fun _ => .inr (decodeHost_reserved w hop)⟩
  · obtain ⟨i, hwf, hres, hok, herr⟩ := decodeHost_reads w (by omega)
    exact ⟨fun h => ⟨i, hok (not_not.1 fun hne => h (.inr hne)), hwf, hres⟩,
      fun h => .inl (herr (h.resolve_left hop))⟩

end Sys2Proof

namespace Sys2Proof.Machine

/-- At a ready port an illegal word is answered with InvalidArgument: no instruction, or a reserved one, is found (R88). -/
theorem step_illegalWord {s : State} {w : HostWord} {rest : List Request} (hw : configWf s.cfg = true)
    (ho : s.adapter.outstanding = none) (hr : s.env.requests = .word w :: rest) (hi : IllegalWord w) :
    step s = .next (returnStatus .invalidArgument (dropRequest s)) := by
  have hf := fetch_word ho hr
  rcases (wordIsLegalOrIllegal w).2 hi with ⟨e, he⟩ | ⟨i, hi, hres⟩
  · rw [he] at hf
    rw [step, if_pos hw, hf]; rfl
  · rw [hi] at hf
    rw [step_of_fetch_run hw hf, exec_reserved i _ hres]

/-- Settles O5: InvalidArgument is all that is returned, on the state with the word taken. -/
theorem illegalWordRefused : Obligations.IllegalWordRefused := by
  intro s w rest hw ho hr hi
  refine ⟨_, step_illegalWord hw ho hr hi, ?_⟩
  rw [dropRequest_of_cons hr]
  rfl

/-! ## The assembly forms (R101) -/

@[simp] theorem byteArg_toNat (b : Byte) : byteArg b.toNat = some b := by
  simp [byteArg, b.isLt]

@[simp] theorem nibbleArg_toNat (x : BitVec 4) : nibbleArg x.toNat = some x := by
  simp [nibbleArg, x.isLt]

@[simp] theorem boolArg_toNat (v : Bool) : boolArg v.toNat = some v := by
  cases v <;> rfl

@[simp] theorem byteArgs_map_toNat (bs : List Byte) : byteArgs (bs.map BitVec.toNat) = some bs := by
  induction bs with
  | nil => rfl
  | cons b bs ih => simp [byteArgs, ih]

/-- GLYPH takes its index and exactly eight rows (R101). -/
theorem assemble_glyph (index : BitVec 4) {rows : List Byte} (h : rows.length = 8) :
    assemble "GLYPH" (index.toNat :: rows.map BitVec.toNat) = some [.glyph index rows] := by
  have hrows := byteArgs_map_toNat rows
  match rows, h with
  | [r0, r1, r2, r3, r4, r5, r6, r7], _ =>
    simp only [List.map_cons, List.map_nil] at hrows ⊢
    simp only [assemble, nibbleArg_toNat, hrows]

/-- Settles O6: the mnemonic selects its row, and each operand is read back from its number. -/
theorem assemblyNamesItsInstruction : Obligations.AssemblyNamesItsInstruction := by
  intro i mnemonic ops hwf h
  cases i with
  | glyph index rows =>
    obtain ⟨rfl, rfl⟩ := Prod.mk.inj (Option.some.inj h)
    exact assemble_glyph index (by simpa [Instr.wf] using hwf)
  | init | cmd | data | clear | home | setcur | wrchar | dispvis | curvis | curblink | backlight =>
    obtain ⟨rfl, rfl⟩ := Prod.mk.inj (Option.some.inj h)
    simp [assemble]
  | reservedC | reservedD | reservedE | reservedF | lcdClear | lcdHome | lcdEntrymode | lcdDispctl | lcdShift
  | lcdFuncset | lcdSetcgram | lcdSetddram | lcdNone | portbyte => cases h

end Sys2Proof.Machine
end

section
/-! PROOFS. The bytes the adapter writes: the lines of a port byte and RW among them (R82, R83, R118 (a)), the delay
class of an instruction byte (R98) and its transmission (R89), and the reserved codes, which write none (R88). -/

namespace Sys2Proof.Machine

/-! ## The lines of a port byte -/

/-- Settles O48: of the seven bits ORed together each stands at its own role's position, and none at RW's (R82, R83). -/
theorem portByteLines : Obligations.PortByteLines := by
  intro c nib rs bl en hw
  simp [portByte, lineLevel_or, lineLevel_atRole hw]

/-- A nibble byte has RW clear (R83, R111). -/
theorem lineLevel_nibbleByte_rw {c : Config} (hw : configWf c = true) (bl : Bool) (nib : Nibble) (rs : Bool) :
    lineLevel c (nibbleByte c bl nib rs) .rw = false :=
  (portByteLines c nib rs bl false hw).2.1

/-- RW is clear in a trace when every write has its line low. -/
theorem rwClear_iff (s : State) : RwClear s ↔ WritesCarry s.cfg .rw false s.env.trace :=
  forall₂_congr fun b _ => and_roleMask_eq_zero s.cfg .rw b

/-- An instruction of the host adds only writes with RW clear: they are writes of its rule's event list (R110). -/
theorem rwClear_of_executes {i : Instr} {s t : State} (hw : configWf s.cfg = true) (hi : isHostInstr i = true)
    (he : Executes i s) (h : exec i s = .next t) (hs : RwClear s) : RwClear t := by
  obtain ⟨new, hnew, hsub⟩ := new_writes_of_executes he h
  have hexp : WritesCarry s.cfg .rw false (expansion i s) :=
    writesCarry_expansion hw (by decide) hi (lineLevel_nibbleByte_rw hw _)
  rw [rwClear_iff] at hs ⊢
  rw [exec_cfg h, hnew, writesCarry_append]
  exact ⟨hs, fun b hb => hexp b (hsub b hb)⟩

/-- Settles O36: a reset leaves no trace, a refusal adds nothing to it, and an instruction of the host writes nibble
bytes with RW clear. -/
theorem stepKeepsRwClear : Obligations.StepKeepsRwClear := by
  intro s t hs h
  obtain ⟨hw, rfl | ⟨u, rfl, -⟩ | ⟨-, ⟨st, rfl, -⟩ | ⟨i, hi, he, hx⟩⟩⟩ := step_cases h
  · exact hs
  · intro b hb; cases hb
  · exact hs
  · exact rwClear_of_executes (s := dropRequest s) hw hi he hx hs

/-! ## The reserved codes -/

/-- Settles O23: each reserved code is refused by `exec_reserved`. -/
theorem reservedCodesRefused : Obligations.ReservedCodesRefused := by
  intro s rest
  have refused (i : Instr) (h : isReserved i = true) : ∃ t, exec i s = .next t ∧ RefusedWith .invalidArgument s t :=
    ⟨_, exec_reserved i s h, rfl⟩
  exact ⟨refused _ rfl, refused _ rfl, refused _ rfl, refused _ rfl⟩

/-! ## The delay class and the transmission of an instruction byte -/

/-- The classifier of R98 is LONG for three bytes. -/
theorem delayClass_eq :
    ∀ cmd : Byte, delayClass cmd = if cmd = 0x01 ∨ cmd = 0x02 ∨ cmd = 0x03 then .long else .short := by
  decide

/-- Settles O50: the delay is that of the class. -/
theorem longDelayClassIsClearAndHome : Obligations.LongDelayClassIsClearAndHome := by
  intro c cmd
  rw [execDelay, delayClass_eq]
  split_ifs with h
  · rfl
  · rfl

theorem execDelay_long {c : Config} {cmd : Byte} (h : delayClass cmd = .long) : execDelay c cmd = c.times.long := by
  rw [execDelay, h]

theorem execDelay_short {c : Config} {cmd : Byte} (h : delayClass cmd = .short) : execDelay c cmd = c.times.cmd := by
  rw [execDelay, h]

/-- A byte is four writes (R113). -/
@[simp] theorem writeCount_byteEvents (c : Config) (bl : Bool) (v : Byte) (rs : Bool) :
    writeCount (byteEvents c bl v rs) = 4 := by
  simp [byteEvents, pulseEvents]

/-- sendCommand completes in Ready for every byte, with the delay of its class (R142). -/
theorem sendCommand_completes {s : State} (cmd : Byte) (hr : s.adapter.mode = .ready) (h : TransportSucceeds 4 s) :
    Completes (commandEvents s.cfg s.adapter.ds.bl cmd) .ready s.adapter.ds s (sendCommand cmd id s) := by
  have hc := transmit_completes (commandActions s.cfg s.adapter.ds.bl cmd) s (by simpa [commandEvents] using h)
  rw [actionEvents_commandActions, hr] at hc
  rwa [sendCommand, requireReady_ready _ hr]

/-- The same with the byte and the delay written otherwise. -/
theorem sendCommand_completes_of_eq {s : State} {cmd b : Byte} {delay : Nat} (hr : s.adapter.mode = .ready)
    (h : TransportSucceeds 4 s) (hb : cmd = b) (hd : execDelay s.cfg b = delay) :
    Completes (byteEvents s.cfg s.adapter.ds.bl b false ++ idle delay) .ready s.adapter.ds s
      (sendCommand cmd id s) := by
  subst hb hd
  exact sendCommand_completes cmd hr h

/-- Settles O24: each row is sendCommand of its byte; that the byte is the sum of its pattern and fields, and of which
class it is, is checked at every value of its few operand bits. -/
theorem lcdBytesComplete : Obligations.LcdBytesComplete := by
  intro s hr h
  have long {cmd b : Byte} (hb : cmd = b ∧ delayClass b = .long) :=
    sendCommand_completes_of_eq hr h hb.1 (execDelay_long hb.2)
  have short {cmd b : Byte} (hb : cmd = b ∧ delayClass b = .short) :=
    sendCommand_completes_of_eq hr h hb.1 (execDelay_short hb.2)
  refine ⟨⟨_, rfl, long (by decide)⟩, fun x => ⟨_, rfl, long ?_⟩, fun inc shift => ⟨_, rfl, short ?_⟩,
    fun d cu bk => ⟨_, rfl, short ?_⟩, fun sc rl x => ⟨_, rfl, short ?_⟩, fun dl n f x => ⟨_, rfl, short ?_⟩,
    fun a => ⟨_, rfl, short ?_⟩, fun a => ⟨_, rfl, short ?_⟩, ⟨_, rfl, short (by decide)⟩⟩
  · revert x; decide
  · revert inc shift; decide
  · revert d cu bk; decide
  · revert sc rl x; decide
  · revert dl n f x; decide
  · revert a; decide
  · revert a; decide

end Sys2Proof.Machine
end

section
/-! PROOFS. WRSTR at the host port (R102): one WRCHAR word per byte runs as the one operation writeString (R165) does. -/

namespace Sys2Proof.Machine

/-! ## The runner, in two parts -/

/-- What no event writes: the configuration, `MODE`, `DS`, the host's requests and the statuses; and a write is
outstanding only where the events wait. -/
structure Frame (p : Progress) (s t : State) : Prop where
  cfg : t.cfg = s.cfg
  mode : t.adapter.mode = s.adapter.mode
  ds : t.adapter.ds = s.adapter.ds
  requests : t.env.requests = s.env.requests
  statuses : t.env.statuses = s.env.statuses
  ready : p ≠ .waiting → t.adapter.outstanding = s.adapter.outstanding
  busy : p = .waiting → ∃ b, t.adapter.outstanding = some b

theorem Ran.frame {evs ran : List Event} {used : Nat} {s t : State} {p : Progress} (h : Ran evs ran used s t)
    (hready : p ≠ .waiting → t.adapter.outstanding = s.adapter.outstanding)
    (hbusy : p = .waiting → ∃ b, t.adapter.outstanding = some b) : Frame p s t := by
  obtain ⟨hcfg, hmode, hds, -, -, -, henv⟩ := h
  exact ⟨hcfg, hmode, hds, by rw [henv], by rw [henv], hready, hbusy⟩

theorem perform_frame (acts : List Action) (s : State) : Frame (perform acts s).1 s (perform acts s).2 := by
  rcases run_cases (actionEvents acts) s with h | ⟨k, h⟩ | ⟨k, h⟩
  · obtain ⟨t, ht, hran, ho⟩ := perform_success acts s h
    rw [ht]; exact hran.frame (fun _ => ho) nofun
  · obtain ⟨t, ht, hran, ho⟩ := perform_failure acts s k h
    rw [ht]; exact hran.frame (fun _ => ho) nofun
  · obtain ⟨t, ht, hran, ho⟩ := perform_silence acts s k h
    rw [ht]; exact hran.frame (fun hp => absurd rfl hp) fun _ => ⟨_, ho.trans (List.getElem?_eq_getElem h.1)⟩

/-- Actions in a row: where the first part is done, the second runs (R65). -/
theorem perform_append_of_done {a : List Action} {s t : State} (h : perform a s = (.done, t)) (b : List Action) :
    perform (a ++ b) s = perform b t := by
  induction a generalizing s with
  | nil =>
    obtain rfl : s = t := congrArg Prod.snd h
    rfl
  | cons x xs ih =>
    cases x with
    | current | nib | delay => exact ih h
    | write v =>
      simp only [List.cons_append, perform] at h ⊢
      split at h
      next => exact ih h
      all_goals cases h

/-- Actions in a row: where the first part stops the run, the second does not begin (R66). -/
theorem perform_append_of_stop {a : List Action} {s t : State} {p : Progress} (h : perform a s = (p, t))
    (hp : p ≠ .done) (b : List Action) : perform (a ++ b) s = (p, t) := by
  induction a generalizing s with
  | nil => exact absurd (congrArg Prod.fst h).symm hp
  | cons x xs ih =>
    cases x with
    | current | nib | delay => exact ih h
    | write v =>
      simp only [List.cons_append, perform] at h ⊢
      split at h
      next => exact ih h
      all_goals exact h

/-! ## writeString, byte by byte -/

/-- sendData in Ready (R143). -/
theorem sendData_ready {s : State} (v : Byte) (hr : s.adapter.mode = .ready) :
    sendData v s = conclude id (perform (dataActions s.cfg s.adapter.ds.bl v) (setSeq 0 s)) := by
  rw [sendData, requireReady_ready _ hr, transmit]

/-- writeString in Ready (R165). -/
theorem writeString_ready {s : State} (bytes : List Byte) (hr : s.adapter.mode = .ready) :
    writeString bytes s
      = conclude id (perform (bytes.flatMap (dataActions s.cfg s.adapter.ds.bl)) (setSeq 0 s)) := by
  rw [writeString, requireReady_ready _ hr, transmit]

/-- The state without what the two ways to send a string do differently: the sequencer, the host's requests and the
statuses (R102). -/
def sent (s : State) : State :=
  { s with adapter := { s.adapter with seq := 0 }, env := { s.env with requests := [], statuses := [] } }

/-- Two runs have sent the same, and have returned the same statuses since `old` and `old'`. -/
def SentAlike (old old' : List Status) (s u : State) : Prop :=
  sent s = sent u ∧ ∃ new, s.env.statuses = old ++ new ∧ u.env.statuses = old' ++ new

/-- No event and no commit reads the sequencer, the requests or the statuses (R22, R36). -/
theorem simulation_sentAlike (old old' : List Status) : Simulation (SentAlike old old') where
  cfg h := (congrArg State.cfg h.1).symm
  mode h := (congrArg (fun s : State => s.adapter.mode) h.1).symm
  flags {s u} h := ⟨u.adapter.ds.inc, u.adapter.ds.shift, by
    have hds : u.adapter.ds = s.adapter.ds := (congrArg (fun s : State => s.adapter.ds) h.1).symm
    rw [← hds]⟩
  answers h := (congrArg (fun s : State => s.env.answers) h.1).symm
  draws h := (congrArg (fun s : State => s.env.draws) h.1).symm
  update hf h := by
    obtain ⟨hsent, new, hs, hu⟩ := h
    cases hf with
    | status st => exact ⟨hsent, new ++ [st], by simp [hs], by simp [hu]⟩
    | seq | advance => exact ⟨hsent, new, hs, hu⟩
    | mode m => exact ⟨congrArg (setMode m) hsent, new, hs, hu⟩
    | dsDuring i => exact ⟨congrArg (updateDs (dsDuring i)) hsent, new, hs, hu⟩
    | dsOnOk i => exact ⟨congrArg (updateDs (dsOnOk i)) hsent, new, hs, hu⟩
    | delay n => exact ⟨congrArg (setDelay n) hsent, new, hs, hu⟩
    | current v rs => exact ⟨congrArg (setCurrent v rs) hsent, new, hs, hu⟩
    | nib x => exact ⟨congrArg (setNib x) hsent, new, hs, hu⟩
    | outstanding b => exact ⟨congrArg (setOutstanding b) hsent, new, hs, hu⟩
    | port b => exact ⟨congrArg (setPort b) hsent, new, hs, hu⟩
    | event e => exact ⟨congrArg (logEvent e) hsent, new, hs, hu⟩
    | answer => exact ⟨congrArg dropAnswer hsent, new, hs, hu⟩
    | draw => exact ⟨congrArg countDraw hsent, new, hs, hu⟩

/-- Actions run alike from states alike, and so does the end of an operation with nothing to commit. -/
theorem SentAlike.conclude_perform {old old' : List Status} {s u : State} (acts : List Action)
    (h : SentAlike old old' s u) :
    SentAlike old old' (conclude id (perform acts s)) (conclude id (perform acts u)) :=
  (simulation_sentAlike old old').conclude .clear ((simulation_sentAlike old old').perform acts h)

/-- Taking a request is not seen by writeString. -/
theorem sentAlike_writeString_dropRequest (bytes : List Byte) (s : State) :
    SentAlike s.env.statuses s.env.statuses (writeString bytes s) (writeString bytes (dropRequest s)) := by
  have hstart : SentAlike s.env.statuses s.env.statuses (setSeq 0 s) (setSeq 0 (dropRequest s)) :=
    ⟨rfl, [], by simp, by simp⟩
  by_cases hr : s.adapter.mode = .ready
  · rw [writeString_ready bytes hr, writeString_ready bytes (s := dropRequest s) hr]
    exact hstart.conclude_perform _
  · have hr' : (dropRequest s).adapter.mode ≠ .ready := hr
    rw [writeString, writeString, requireReady_notReady _ hr, requireReady_notReady _ hr']
    exact ⟨rfl, _, rfl, rfl⟩

/-- The operation that took `s` to `t` returned the status `st`, and the host port is as it was but for that. -/
structure Answered (st : Status) (s t : State) : Prop where
  cfg : t.cfg = s.cfg
  outstanding : t.adapter.outstanding = s.adapter.outstanding
  requests : t.env.requests = s.env.requests
  statuses : t.env.statuses = s.env.statuses ++ [st]

/-- What sendData of a string's first byte says of writeString, in Ready: a byte that is sent is the first part of the
string, and a byte that is not ends the string (R165, R66). -/
theorem sendData_cases {s : State} (b : Byte) (hr : s.adapter.mode = .ready) :
    ((sendData b s).adapter.mode = .ready ∧ Answered .ok s (sendData b s)
        ∧ ∀ bs, SentAlike s.env.statuses (s.env.statuses ++ [.ok]) (writeString (b :: bs) s)
            (writeString bs (sendData b s)))
      ∨ ((sendData b s).adapter.mode = .faulted ∧ Answered .transportError s (sendData b s)
        ∧ ∀ bs, writeString (b :: bs) s = sendData b s)
      ∨ ((∃ x, (sendData b s).adapter.outstanding = some x)
        ∧ (sendData b s).cfg = s.cfg ∧ (sendData b s).env.requests = s.env.requests
        ∧ (sendData b s).env.statuses = s.env.statuses ∧ ∀ bs, writeString (b :: bs) s = sendData b s) := by
  have hframe := perform_frame (dataActions s.cfg s.adapter.ds.bl b) (setSeq 0 s)
  have hstring (bs : List Byte) := writeString_ready (b :: bs) hr
  simp only [List.flatMap_cons] at hstring
  rw [sendData_ready b hr]
  rcases hperform : perform (dataActions s.cfg s.adapter.ds.bl b) (setSeq 0 s) with ⟨p, t⟩
  rw [hperform] at hframe
  obtain ⟨hcfg, hmode, hds, hrequests, hstatuses, hready, hbusy⟩ := hframe
  cases p with
  | done =>
    have hready' : (returnStatus .ok t).adapter.mode = .ready := hmode.trans hr
    refine .inl ⟨hready', ⟨hcfg, hready nofun, hrequests, congrArg (· ++ [Status.ok]) hstatuses⟩, fun bs => ?_⟩
    have hcfg' : (returnStatus .ok t).cfg = s.cfg := hcfg
    have hds' : (returnStatus .ok t).adapter.ds = s.adapter.ds := hds
    have halike : SentAlike s.env.statuses (s.env.statuses ++ [.ok]) t (setSeq 0 (returnStatus .ok t)) :=
      ⟨rfl, [], by simpa using hstatuses, by simpa using hstatuses⟩
    rw [hstring bs, perform_append_of_done hperform]
    show SentAlike _ _ _ (writeString bs (returnStatus .ok t))
    rw [writeString_ready bs hready', hcfg', hds']
    exact halike.conclude_perform _
  | failed =>
    refine .inr (.inl ⟨rfl, ⟨hcfg, hready nofun, hrequests, congrArg (· ++ [Status.transportError]) hstatuses⟩,
      fun bs => ?_⟩)
    rw [hstring bs, perform_append_of_stop hperform nofun]
  | waiting =>
    refine .inr (.inr ⟨hbusy rfl, hcfg, hrequests, hstatuses, fun bs => ?_⟩)
    rw [hstring bs, perform_append_of_stop hperform nofun]

/-! ## The words of WRSTR -/

/-- Outside Ready writeString is refused (R140). -/
theorem writeString_notReady {s : State} (bytes : List Byte) (hm : s.adapter.mode ≠ .ready) :
    writeString bytes s = returnStatus .notInitializedError s := by
  rw [writeString, requireReady_notReady _ hm]

/-- The first word of WRSTR is sendData of its byte (R102, R164). -/
theorem step_wrstrRequests {s : State} {b : Byte} {bs : List Byte} (hw : configWf s.cfg = true)
    (ho : s.adapter.outstanding = none) (hr : s.env.requests = wrstrRequests (b :: bs)) :
    step s = .next (sendData b (dropRequest s)) :=
  step_of_fetch_run hw (fetch_eq_run ho hr (decodeOfEncodeIsInstr (.wrchar b) rfl))

/-- At a busy port the words of WRSTR wait (R209). -/
theorem step_of_busy {s : State} {x : Byte} {bytes : List Byte} (hw : configWf s.cfg = true)
    (ho : s.adapter.outstanding = some x) (hr : s.env.requests = wrstrRequests bytes) : step s = .next s := by
  have hreset : .reset ∉ s.env.requests := by simp [hr, wrstrRequests]
  rw [step, if_pos hw, fetch_busy ho, if_neg hreset]

theorem run_succ {M : Host.Core} {s t : M.State} (h : M.step s = .next t) (n : Nat) : M.run (n + 1) s = M.run n t := by
  simp only [Host.Core.run, h]

theorem run_of_waits {M : Host.Core} {s : M.State} (h : M.step s = .next s) (n : Nat) : M.run n s = .next s := by
  induction n with
  | zero => rfl
  | succ n ih => rw [run_succ h, ih]

/-- The words of WRSTR, presented in `s`, run as writeString does: `sts` are the statuses they return. -/
def RunsAsString (bytes : List Byte) (s : State) : Prop :=
  ∃ u sts, Host.Core.run core bytes.length s = .next u
    ∧ sent u = sent (writeString bytes s)
    ∧ u.env.statuses = s.env.statuses ++ sts
    ∧ (u.adapter.outstanding = none → bytes ≠ [] ∨ s.adapter.mode = .ready →
        (writeString bytes s).env.statuses = s.env.statuses ++ [wrstrStatus sts])

/-- The empty string is no word at all (R102). -/
theorem runsAsString_nil (s : State) : RunsAsString [] s := by
  by_cases hr : s.adapter.mode = .ready
  · rw [RunsAsString, writeString_ready [] hr]
    exact ⟨s, [], rfl, rfl, by simp, fun _ _ => rfl⟩
  · rw [RunsAsString, writeString_notReady [] hr]
    exact ⟨s, [], rfl, rfl, by simp, fun _ h => absurd h (by simp [hr])⟩

section
variable {b : Byte} {bs : List Byte} {s t : State} (hstep : step s = .next t)
include hstep

/-- A first word that ends the string and leaves Ready: every word after it is refused and changes nothing. -/
theorem RunsAsString.cons_of_refused {st : Status} (hrest : RunsAsString bs t)
    (hans : Answered st (dropRequest s) t) (hst : st ≠ .ok) (hm : t.adapter.mode ≠ .ready)
    (hends : writeString (b :: bs) (dropRequest s) = t) : RunsAsString (b :: bs) s := by
  obtain ⟨hsent, new, hs, ht⟩ := sentAlike_writeString_dropRequest (b :: bs) s
  rw [hends] at hsent ht
  obtain ⟨u, sts, hrun, hu, hstatuses, -⟩ := hrest
  rw [writeString_notReady bs hm] at hu
  refine ⟨u, st :: sts, by rw [List.length_cons, run_succ (M := core) hstep, hrun], hu.trans hsent.symm, ?_,
    fun _ _ => ?_⟩
  · simp [hstatuses, hans.statuses]
  · have hstatus : wrstrStatus (st :: sts) = st := by
      cases st with
      | ok => exact absurd rfl hst
      | transportError | notInitializedError | invalidArgument => rfl
    rw [hs, ← ht, hans.statuses, hstatus]; rfl

/-- A first word that is sent: the words after it send the rest of the string. -/
theorem RunsAsString.cons_of_ok (hrest : RunsAsString bs t) (hans : Answered .ok (dropRequest s) t)
    (hm : t.adapter.mode = .ready)
    (halike : SentAlike s.env.statuses (s.env.statuses ++ [.ok]) (writeString (b :: bs) (dropRequest s))
      (writeString bs t)) : RunsAsString (b :: bs) s := by
  obtain ⟨hsent, new, hs, ht⟩ := sentAlike_writeString_dropRequest (b :: bs) s
  obtain ⟨hsent', new', hs', ht'⟩ := halike
  obtain ⟨u, sts, hrun, hu, hstatuses, hstatus⟩ := hrest
  have hts : t.env.statuses = s.env.statuses ++ [.ok] := hans.statuses
  refine ⟨u, .ok :: sts, by rw [List.length_cons, run_succ (M := core) hstep, hrun], ?_, ?_, fun ho _ => ?_⟩
  · rw [hu, ← hsent', hsent]
  · simp [hstatuses, hts]
  · have hnew : new' = [wrstrStatus sts] := by
      have h := hstatus ho (.inr hm)
      rw [ht', hts] at h
      exact List.append_cancel_left h
    rw [hs, ← ht, hs', hnew]; rfl

/-- A first word with a write that is not answered: the words after it wait. -/
theorem RunsAsString.cons_of_busy {x : Byte} (hw : configWf t.cfg = true) (ho : t.adapter.outstanding = some x)
    (hr : t.env.requests = wrstrRequests bs) (hstatuses : t.env.statuses = s.env.statuses)
    (hends : writeString (b :: bs) (dropRequest s) = t) : RunsAsString (b :: bs) s := by
  obtain ⟨hsent, -⟩ := sentAlike_writeString_dropRequest (b :: bs) s
  rw [hends] at hsent
  refine ⟨t, [], ?_, hsent.symm, by simp [hstatuses], fun h => ?_⟩
  · rw [List.length_cons, run_succ (M := core) hstep, run_of_waits (M := core) (step_of_busy hw ho hr)]
  · rw [ho] at h; cases h

end

theorem runsAsString (bytes : List Byte) (s : State) (hw : configWf s.cfg = true) (ho : s.adapter.outstanding = none)
    (hr : s.env.requests = wrstrRequests bytes) : RunsAsString bytes s := by
  induction bytes generalizing s with
  | nil => exact runsAsString_nil s
  | cons b bs ih =>
    have hstep := step_wrstrRequests hw ho hr
    have hrest : (dropRequest s).env.requests = wrstrRequests bs := by rw [dropRequest_of_cons hr]; rfl
    have next {st : Status} (hans : Answered st (dropRequest s) (sendData b (dropRequest s))) :
        RunsAsString bs (sendData b (dropRequest s)) :=
      ih _ (by rw [hans.cfg]; exact hw) (hans.outstanding.trans ho) (hans.requests.trans hrest)
    by_cases hm : (dropRequest s).adapter.mode = .ready
    · rcases sendData_cases b hm with ⟨hmode, hans, halike⟩ | ⟨hmode, hans, hends⟩
        | ⟨⟨x, hx⟩, hcfg, hrequests, hstatuses, hends⟩
      · exact (next hans).cons_of_ok hstep hans hmode (halike bs)
      · exact (next hans).cons_of_refused hstep hans nofun (by rw [hmode]; nofun) (hends bs)
      · exact .cons_of_busy hstep (by rw [hcfg]; exact hw) hx (hrequests.trans hrest) hstatuses (hends bs)
    · have hrefused : sendData b (dropRequest s) = returnStatus .notInitializedError (dropRequest s) := by
        rw [sendData, requireReady_notReady _ hm]
      have hans : Answered .notInitializedError (dropRequest s) (sendData b (dropRequest s)) := by
        rw [hrefused]; exact ⟨rfl, rfl, rfl, rfl⟩
      exact (next hans).cons_of_refused hstep hans nofun (by rw [hrefused]; exact hm)
        (by rw [hrefused, writeString_notReady _ hm])

/-- Settles O47: by induction on the string. In Ready a first byte that is sent leaves the rest of the string to send, one
whose write fails leaves an adapter that refuses the rest, and one that hangs leaves the rest waiting; outside Ready
every word is refused. -/
theorem stringExpansionRunsAsWriteString : Obligations.StringExpansionRunsAsWriteString := by
  intro bytes s hw ho hr
  obtain ⟨u, sts, hrun, hsent, hstatuses, hstatus⟩ := runsAsString bytes s hw ho hr
  have same {α : Type} (f : State → α) : f (sent u) = f (sent (writeString bytes s)) := congrArg f hsent
  exact ⟨u, sts, hrun, same (·.env.trace), same (·.env.answers), same (·.port), same (·.adapter.mode),
    same (·.adapter.ds), same (·.adapter.outstanding), hstatuses, hstatus⟩

end Sys2Proof.Machine
end

section
/-! PROOFS. The invariants of R118 at reset and at every step: whole Enable pulses (b), Enable at rest (c), no effect of a
refusal (f); and the arithmetic of R116. -/

namespace Sys2Proof.Machine

/-! ## The invariants at reset, and the pulse pairs -/

/-- Settles O35: at reset the trace is empty and `MODE` is not Ready (R221); no pair is open, so the pulses are clean. -/
theorem resetMeetsInvariants : Obligations.ResetMeetsInvariants := by
  have hpaired : Paired State.reset := .inl rfl
  have hmode : State.reset.adapter.mode ≠ .ready := nofun
  exact ⟨nofun, hpaired, fun h => absurd h hmode, hpaired.pulsesClean, fun h => absurd h hmode⟩

/-- Settles O37: `paired_of_step`, by which a step adds a train of pulses where no pair is open, cut by at most one write
that fails or is not answered. -/
theorem stepKeepsPulsePairs : Obligations.StepKeepsPulsePairs := fun _ _ => paired_of_step

/-! ## The Enable line at rest -/

/-- A byte is zero under the Enable mask when its EN bit is clear (R7). -/
theorem and_enableMask_eq_zero (c : Config) (b : Byte) : b &&& enableMask c = 0 ↔ enableSet c b = false :=
  and_roleMask_eq_zero c .en b

/-- A pulse leaves its nibble byte in `PORT`, whatever was there (R112). -/
@[simp] theorem portAfter_pulseEvents (c : Config) (p x : Byte) : portAfter p (pulseEvents c x) = x := by
  simp [pulseEvents, portAfter]

/-- A byte leaves its low nibble in `PORT`, whatever was there (R113). -/
@[simp] theorem portAfter_byteEvents (c : Config) (bl : Bool) (p v : Byte) (rs : Bool) :
    portAfter p (byteEvents c bl v rs) = nibbleByte c bl (lowNibble v) rs := by
  simp [byteEvents]

/-- initialize leaves in `PORT` the low nibble of its last command, whatever was there (R141). -/
theorem portAfter_initEvents (c : Config) (bl : Bool) (p : Byte) :
    portAfter p (initEvents c bl) = nibbleByte c bl (lowNibble (entryMode c true false)) false := by
  rw [initEvents, portAfter_append, portAfter_idle, portAfter_append, portAfter_byteEvents]

/-- A train of pulses that starts with Enable low ends with Enable low (R118 (c)). -/
theorem enableSet_portAfter_pulseTrain {c : Config} {bl : Bool} {es : List Event} {p : Byte} (hw : configWf c = true)
    (h : PulseTrain c bl es) (hp : enableSet c p = false) : enableSet c (portAfter p es) = false := by
  induction h generalizing p with
  | nil => exact hp
  | idle t => rwa [portAfter_idle]
  | pulse nib rs => rw [portAfter_pulseEvents, enableSet_nibbleByte hw]
  | single nib rs => exact enableSet_nibbleByte hw bl nib rs
  | append _ _ iha ihb => rw [portAfter_append]; exact ihb (iha hp)

/-- The event list of an instruction of the host leaves Enable low: INIT does from any `PORT`, the others keep it low. -/
theorem enableSet_portAfter_expansion {i : Instr} {s : State} (hw : configWf s.cfg = true) (hi : isHostInstr i = true)
    (hp : i ≠ .init → enableSet s.cfg s.port = false) :
    enableSet s.cfg (portAfter s.port (expansion i s)) = false := by
  by_cases hinit : i = .init
  · subst hinit
    rw [expansion, portAfter_initEvents, enableSet_nibbleByte hw]
  · exact enableSet_portAfter_pulseTrain hw (pulseTrain_expansion hi s) (hp hinit)

/-- A write that hangs is outstanding. -/
theorem Hangs.outstanding_ne_none {k : Nat} {evs : List Event} {ds : DisplayState} {s t : State}
    (h : Hangs k evs ds s t) (hk : k < writeCount evs) : t.adapter.outstanding ≠ none := by
  obtain ⟨-, -, -, -, -, hout, -⟩ := h
  simpa [hout, writeCount] using hk

/-- An instruction of the host that executes at a ready port leaves Enable at rest: completed, it has lowered it; faulted,
it has left Ready (R196); hung, it has a write outstanding (R209). -/
theorem enableRests_of_executes {i : Instr} {s t : State} (hw : configWf s.cfg = true) (hi : isHostInstr i = true)
    (he : Executes i s) (h : exec i s = .next t) (ho : s.adapter.outstanding = none) (hs : EnableRests s) :
    EnableRests t := by
  intro hready hidle
  obtain ⟨u, hu, hends⟩ := exec_cases i s he
  obtain rfl : u = t := by simpa [hu] using h
  rcases hends with ⟨-, hcfg, hmode, -, -, -, -, hport, -⟩ | ⟨k, -, -, hmode, -⟩ | ⟨k, ⟨hk, -⟩, hh⟩
  · rw [hcfg, hport, and_enableMask_eq_zero]
    refine enableSet_portAfter_expansion hw hi fun hinit => ?_
    rw [modeOnOk_of_ne_init hinit, hready] at hmode
    exact (and_enableMask_eq_zero _ _).1 (hs hmode.symm ho)
  · rw [hready] at hmode; cases hmode
  · exact absurd hidle (hh.outstanding_ne_none hk)

/-- Settles O38: a reset leaves Ready (R221), a refusal leaves `MODE` and `PORT`, and an instruction that executes leaves
Enable at rest. -/
theorem stepKeepsEnableLow : Obligations.StepKeepsEnableLow := by
  intro s t hs h
  obtain ⟨hw, rfl | ⟨u, rfl, -⟩ | ⟨ho, ⟨st, rfl, -⟩ | ⟨i, hi, he, hx⟩⟩⟩ := step_cases h
  · exact hs
  · intro hready; cases hready
  · exact hs
  · exact enableRests_of_executes (s := dropRequest s) hw hi he hx ho hs

/-! ## Refusals -/

/-- An instruction is refused, which returns a status and does nothing else, or its checks pass (R195, R196). -/
theorem refused_or_executes {i : Instr} {s t : State} (h : exec i s = .next t) :
    (∃ st, t = returnStatus st s) ∨ Executes i s := by
  have refused {st : Status} (he : exec i s = .next (returnStatus st s)) : ∃ st, t = returnStatus st s :=
    ⟨st, by simpa [he] using h.symm⟩
  rcases checks_cases i s with hr | ⟨hn, hm⟩ | ⟨-, hm, ha⟩ | he
  · exact .inl (refused (exec_reserved i s hr))
  · exact .inl (refused (exec_notReady i s hn hm))
  · exact .inl (refused (exec_badArgument i s hm ha))
  · exact .inr he

/-- An instruction that executes returns OK or TransportError, or nothing while it hangs (R195, R209). -/
theorem status_of_executes {i : Instr} {s t : State} {st : Status} (he : Executes i s) (h : exec i s = .next t)
    (hst : t.env.statuses = s.env.statuses ++ [st]) : st = .ok ∨ st = .transportError := by
  rcases ends_of_executes he h with ⟨-, -, -, -, -, -, -, henv⟩ | ⟨k, -, -, -, -, -, -, -, henv⟩
    | ⟨k, -, -, -, -, -, -, -, henv⟩
  · left; simpa [henv, eq_comm] using hst
  · right; simpa [henv, eq_comm] using hst
  · simp [henv] at hst

/-- Settles O44: an instruction that executes returns neither status, so this one was refused by a check. -/
theorem refusalChangesNothing : Obligations.RefusalChangesNothing := by
  intro i s t st hst h hadds
  rcases refused_or_executes h with ⟨st', rfl⟩ | he
  · obtain rfl : st' = st := by simpa using hadds
    rfl
  · rcases status_of_executes he h hadds with rfl | rfl
    · simp at hst
    · simp at hst

/-! ## The arithmetic of R116 -/

section
variable {c : Config}

/-- R6 (c): the addresses of a row's cells fit 7 bits, so ROWBASE and column add without overflow (R54, R116 (e)). -/
theorem toNat_ddramAddress {row column : Nat} (hw : configWf c = true) (hrow : row < c.rows) (hcol : column < c.cols) :
    (ddramAddress c row column).toNat = (rowBaseOf c row).toNat + column := by
  simp only [configWf, Bool.and_eq_true] at hw
  obtain ⟨⟨-, hrows⟩, -⟩ := hw
  have hfits : (rowBaseOf c row).toNat + c.cols - 1 ≤ 0x7F := by
    simpa using List.all_eq_true.1 hrows row (List.mem_range.2 hrow)
  rw [ddramAddress, BitVec.toNat_add, BitVec.toNat_ofNat]
  omega

/-- Set-DDRAM-address adds 0x80 to its address (R97). -/
theorem toNat_setDdram (hl : c.lcdi = defaultLcdi) (a : BitVec 7) : (setDdram c a).toNat = 0x80 + a.toNat := by
  rw [setDdram, hl]
  revert a; decide

/-- The glyph address of a legal index is 8 times the index, and Set-CGRAM-address adds 0x40 to it (R55, R96). -/
theorem toNat_setCgram (hl : c.lcdi = defaultLcdi) (index : BitVec 4) (h : index.toNat ≤ 7) :
    (setCgram c index).toNat = 0x40 + 8 * index.toNat := by
  rw [setCgram, hl]
  revert index; decide

/-- DispCtl is 0x08 with three flag bits below it (R93). -/
theorem toNat_dispCtl_bounds (hl : c.lcdi = defaultLcdi) (d cu bk : Bool) :
    0x08 ≤ (dispCtl c d cu bk).toNat ∧ (dispCtl c d cu bk).toNat ≤ 0x0F := by
  rw [dispCtl, hl]
  revert d cu bk; decide

end

/-- Settles O49: a nibble byte has Enable low, so raising and lowering Enable gives it back; a well-formed row's addresses
fit 7 bits; and each command byte is its base with an operand below it. -/
theorem arithmeticDoesNotOverflow : Obligations.ArithmeticDoesNotOverflow := by
  intro c hw hl
  have enableLow (nib : Nibble) (rs bl : Bool) := enableSet_nibbleByte hw bl nib rs
  refine ⟨joinNibbles_nibbles,
    fun nib rs bl => ⟨(and_enableMask_eq_zero _ _).2 (enableLow nib rs bl), or_and_not_enableMask c _ (enableLow nib rs bl)⟩,
    fun row column hrow hcol => ?_, toNat_setCgram hl, toNat_dispCtl_bounds hl⟩
  rw [toNat_setDdram hl, toNat_ddramAddress hw hrow hcol]

end Sys2Proof.Machine
end

section
/-! PROOFS. The core operations INIT, CMD and DATA complete when the transport answers their writes with success (R141 to
R143), and the event list of INIT with the default LCD constants (R141). -/

namespace Sys2Proof.Machine

/-! ## An instruction whose writes succeed -/

/-- An instruction whose checks pass and whose writes all succeed completes. -/
theorem completes_of_executes {i : Instr} {s : State} (he : Executes i s)
    (hs : TransportSucceeds (writeCount (expansion i s)) s) :
    ∃ t, exec i s = .next t
      ∧ Completes (expansion i s) (modeOnOk i s.adapter.mode) (dsOnOk i s.adapter.ds) s t := by
  obtain ⟨t, ht, ⟨-, hc⟩ | ⟨k, ⟨hk, -, hfail⟩, -⟩ | ⟨k, ⟨hk, -, hsilent⟩, -⟩⟩ := exec_cases i s he
  · exact ⟨t, ht, hc⟩
  · simp [not_fails_of_succeeds hs hk] at hfail
  · simp [not_fails_of_succeeds hs hk] at hsilent

/-- Settles O13: INIT has no check to pass, so it executes in every mode, and on success it commits the defaults of `DS`
and Ready. -/
theorem initCompletes : Obligations.InitCompletes := fun _ h =>
  completes_of_executes (i := .init) ⟨rfl, nofun, rfl⟩ h

/-! ## The working registers -/

/-- The working registers CURB, RSSEL and NIB (R21). -/
structure Working where
  curb : Byte
  rssel : Bool
  nib : Byte

/-- The working registers of an adapter. -/
def Adapter.working (a : Adapter) : Working := ⟨a.curb, a.rssel, a.nib⟩

/-- The working registers after an expansion: writes and delays leave them (R113). -/
def workingAfter : List Action → Working → Working
  | [], w => w
  | .current v rs :: as, w => workingAfter as { w with curb := v, rssel := rs }
  | .nib x :: as, w => workingAfter as { w with nib := x }
  | .write _ :: as, w => workingAfter as w
  | .delay _ :: as, w => workingAfter as w

@[simp] theorem working_delayFor (t : Nat) (s : State) : (delayFor t s).adapter.working = s.adapter.working := by
  unfold delayFor
  split
  · rfl
  · rfl

@[simp] theorem working_memWrite (b : Byte) (s : State) : (memWrite b s).2.adapter.working = s.adapter.working := by
  unfold memWrite
  split
  all_goals rfl

/-- An expansion that is done has run each of its lines. -/
theorem working_of_perform {acts : List Action} {s t : State} (h : perform acts s = (.done, t)) :
    t.adapter.working = workingAfter acts s.adapter.working := by
  induction acts generalizing s with
  | nil =>
    obtain rfl : s = t := congrArg Prod.snd h
    rfl
  | cons a as ih =>
    cases a with
    | current | nib => exact ih h
    | delay d => simpa [workingAfter] using ih (s := delayFor d s) h
    | write b =>
      have hkept := working_memWrite b s
      simp only [perform] at h
      split at h
      next u hu =>
        rw [hu] at hkept
        rw [ih h, hkept, workingAfter]
      all_goals cases h

/-- An instruction whose writes all succeed leaves the working registers as its expansion does. -/
theorem working_of_executes {i : Instr} {s t : State} (he : Executes i s)
    (hs : TransportSucceeds (writeCount (expansion i s)) s) (h : exec i s = .next t) :
    t.adapter.working = workingAfter (instrActions i s) s.adapter.working := by
  rw [← actionEvents_instrActions] at hs
  obtain ⟨u, hu, -⟩ := perform_success (instrActions i s) (setSeq 0 (updateDs (dsDuring i) s)) hs
  rw [exec_eq_transmit he, transmit, hu] at h
  have hwork := working_of_perform hu
  cases h
  exact hwork

/-! ## CMD and DATA -/

/-- An instruction that sends one byte and waits holds the byte in CURB, its RS value in RSSEL, and its low nibble in NIB
and `PORT` (R21, R31, R113; log 6). -/
theorem completes_of_writeByte {i : Instr} {s : State} {v : Byte} {rs : Bool} {delay : Nat} (he : Executes i s)
    (hacts : instrActions i s = writeByte s.cfg s.adapter.ds.bl v rs ++ [.delay delay])
    (h : TransportSucceeds 4 s) :
    ∃ t, exec i s = .next t
      ∧ Completes (byteEvents s.cfg s.adapter.ds.bl v rs ++ idle delay) (modeOnOk i s.adapter.mode)
          (dsOnOk i s.adapter.ds) s t
      ∧ t.adapter.curb = v ∧ t.adapter.rssel = rs
      ∧ t.adapter.nib = nibbleByte s.cfg s.adapter.ds.bl (lowNibble v) rs
      ∧ t.port = nibbleByte s.cfg s.adapter.ds.bl (lowNibble v) rs := by
  have hevents : expansion i s = byteEvents s.cfg s.adapter.ds.bl v rs ++ idle delay := by
    simp [← actionEvents_instrActions, hacts, actionEvents]
  have hs : TransportSucceeds (writeCount (expansion i s)) s := by simpa [hevents] using h
  obtain ⟨t, ht, hc⟩ := completes_of_executes he hs
  have hwork : t.adapter.working = ⟨v, rs, nibbleByte s.cfg s.adapter.ds.bl (lowNibble v) rs⟩ := by
    rw [working_of_executes he hs ht, hacts]; rfl
  rw [hevents] at hc
  have hport : t.port = nibbleByte s.cfg s.adapter.ds.bl (lowNibble v) rs := by
    obtain ⟨-, -, -, -, -, -, hport, -⟩ := hc
    rw [hport, portAfter_append, portAfter_idle, portAfter_byteEvents]
  exact ⟨t, ht, hc, congrArg Working.curb hwork, congrArg Working.rssel hwork, congrArg Working.nib hwork, hport⟩

/-- Settles O15: CMD sends one byte with RS = 0, and the classifier of R98 gives its delay. -/
theorem cmdCompletes : Obligations.CmdCompletes := by
  intro s cmd hr h
  rw [← hr, ← longDelayClassIsClearAndHome s.cfg cmd]
  exact completes_of_writeByte (i := .cmd cmd) ⟨rfl, fun _ => hr, rfl⟩ rfl h

/-- Settles O16: DATA sends one byte with RS = 1. -/
theorem dataCompletes : Obligations.DataCompletes := by
  intro s value hr h
  rw [← hr]
  exact completes_of_writeByte (i := .data value) ⟨rfl, fun _ => hr, rfl⟩ rfl h

/-! ## The event list of INIT with the default LCD constants -/

section
variable {c : Config}

/-- FuncSet with `DL = 0` (R95). -/
theorem funcSet_default (hl : c.lcdi = defaultLcdi) :
    funcSet c = 0x20 ||| (if 1 < c.rows then 0x08 else 0) ||| (if c.font then 0x04 else 0) := by
  have hflagN (n : Bool) : flagAt 3 n = if n then 0x08 else 0 := by revert n; decide
  have hflagF (f : Bool) : flagAt 2 f = if f then 0x04 else 0 := by revert f; decide
  simp [funcSet, hl, defaultLcdi, hflagN, hflagF]

/-- Every FuncSet byte is in the short delay class (R98). -/
theorem delayClass_funcSet (hl : c.lcdi = defaultLcdi) : delayClass (funcSet c) = .short := by
  rw [funcSet_default hl]
  split_ifs
  all_goals decide

/-- The display on, cursor and blink off (R93). -/
theorem dispCtl_default (hl : c.lcdi = defaultLcdi) : dispCtl c true false false = 0x0C := by
  rw [dispCtl, hl]; decide

/-- Increment, no auto-scroll (R92). -/
theorem entryMode_default (hl : c.lcdi = defaultLcdi) : entryMode c true false = 0x06 := by
  rw [entryMode, hl]; decide

/-- The raw nibbles of INIT are 3, 3, 3 and 2 (R99). -/
theorem handshakeEvents_default (hl : c.lcdi = defaultLcdi) (bl : Bool) :
    handshakeEvents c bl =
      pulseEvents c (nibbleByte c bl 0x3 false) ++ idle c.times.init1
        ++ pulseEvents c (nibbleByte c bl 0x3 false) ++ idle c.times.init2
        ++ pulseEvents c (nibbleByte c bl 0x3 false) ++ idle c.times.init2
        ++ pulseEvents c (nibbleByte c bl 0x2 false) ++ idle c.times.init2 := by
  simp [handshakeEvents, hl, defaultLcdi]

end

/-- Settles O14: the raw nibbles and the four command bytes are those of the default constants, and the function-set byte
is in the short delay class. -/
theorem initEventsAreTheHandshake : Obligations.InitEventsAreTheHandshake := by
  intro c bl hl
  have hclear : c.lcdi.clear = 0x01 := by rw [hl]; rfl
  rw [initEvents, handshakeEvents_default hl, execDelay_short (delayClass_funcSet hl), funcSet_default hl,
    dispCtl_default hl, hclear, entryMode_default hl]
  simp only [List.append_assoc]

end Sys2Proof.Machine
end

section
/-! PROOFS. The display operations (R161 to R170): each that sends an instruction byte completes as sendCommand of that
byte, the data bytes of a string and of a glyph follow in order, setBacklight makes its one write or none, and an
operand out of its range is refused. -/

namespace Sys2Proof.Machine

/-! ## The operations that send one instruction byte -/

/-- What an operation that completes adds to the trace. -/
theorem Completes.trace_eq {evs : List Event} {mode : Mode} {ds : DisplayState} {s t : State}
    (h : Completes evs mode ds s t) : t.env.trace = s.env.trace ++ evs := by
  obtain ⟨-, -, -, -, -, -, -, henv⟩ := h
  rw [henv]

/-- An instruction that sends one instruction byte completes in Ready as sendCommand of it (R142, R160 (c)); `b` and
`delay` are that byte and its delay under the default LCD constants. -/
theorem completes_of_command {i : Instr} {s : State} {cmd b : Byte} {delay : Nat} (he : Executes i s)
    (hr : s.adapter.mode = .ready) (hacts : instrActions i s = commandActions s.cfg s.adapter.ds.bl cmd)
    (h : TransportSucceeds 4 s) (hdefault : s.cfg.lcdi = defaultLcdi → cmd = b ∧ execDelay s.cfg b = delay) :
    ∃ t, exec i s = .next t
      ∧ Completes (commandEvents s.cfg s.adapter.ds.bl cmd) (modeOnOk i .ready) (dsOnOk i s.adapter.ds) s t
      ∧ (s.cfg.lcdi = defaultLcdi →
          t.env.trace = s.env.trace ++ byteEvents s.cfg s.adapter.ds.bl b false ++ idle delay) := by
  obtain ⟨t, ht, hc, -⟩ := completes_of_writeByte he hacts h
  rw [hr] at hc
  refine ⟨t, ht, hc, fun hl => ?_⟩
  obtain ⟨rfl, rfl⟩ := hdefault hl
  rw [hc.trace_eq, List.append_assoc]

/-- Settles O17: both bytes come from the LCD constants, and the default ones, 0x01 and 0x02, are in the long delay
class. -/
theorem clearAndHomeComplete : Obligations.ClearAndHomeComplete := by
  intro s hr h
  have long {cmd b : Byte} (hb : s.cfg.lcdi = defaultLcdi → cmd = b) (hd : delayClass b = .long)
      (hl : s.cfg.lcdi = defaultLcdi) : cmd = b ∧ execDelay s.cfg b = s.cfg.times.long :=
    ⟨hb hl, execDelay_long hd⟩
  exact ⟨completes_of_command (i := .clear) ⟨rfl, fun _ => hr, rfl⟩ hr rfl h
      (long (congrArg Lcdi.clear) (by decide)),
    completes_of_command (i := .home) ⟨rfl, fun _ => hr, rfl⟩ hr rfl h
      (long (congrArg Lcdi.home) (by decide))⟩

/-- Every Set-DDRAM-address byte is in the short delay class (R98). -/
theorem delayClass_setDdram {c : Config} (hl : c.lcdi = defaultLcdi) (a : BitVec 7) :
    delayClass (setDdram c a) = .short := by
  rw [setDdram, hl]
  revert a; decide

/-- Settles O18: a cell of the display passes both range checks, and the byte of its address is the plain sum because no
address of a well-formed row overflows. -/
theorem setcurCompletes : Obligations.SetcurCompletes := by
  intro s row column hr hrow hcol h
  have he : Executes (.setcur row column) s := ⟨rfl, fun _ => hr, by simp [argumentsOk, hrow, hcol]⟩
  obtain ⟨t, ht, hc, htrace⟩ := completes_of_command he hr rfl h
    fun hl => ⟨rfl, execDelay_short (delayClass_setDdram hl _)⟩
  refine ⟨t, ht, hc, fun hw hl => ⟨_, ?_, htrace hl⟩⟩
  rw [toNat_setDdram hl, toNat_ddramAddress hw hrow hcol]

/-- Settles O19: the word is the one the encoder writes for WRCHAR, and the two instructions have the same meaning, so
WRCHAR completes as DATA does. -/
theorem wrcharCompletes : Obligations.WrcharCompletes := by
  intro s byte
  refine ⟨decodeOfEncodeIsInstr (.wrchar byte) rfl, rfl, fun hr h => ?_⟩
  obtain ⟨t, ht, hc, -⟩ := dataCompletes s byte hr h
  exact ⟨t, ht, hc⟩

/-- With the default LCD constants DispCtl is 00001DCB, in the short delay class (R93, R98). -/
theorem dispCtl_default_short {c : Config} (d cu bk : Bool) (hl : c.lcdi = defaultLcdi) :
    dispCtl c d cu bk = 0x08 ||| flagAt 2 d ||| flagAt 1 cu ||| flagAt 0 bk
      ∧ execDelay c (0x08 ||| flagAt 2 d ||| flagAt 1 cu ||| flagAt 0 bk) = c.times.cmd := by
  have hclass : delayClass (0x08 ||| flagAt 2 d ||| flagAt 1 cu ||| flagAt 0 bk) = .short := by
    revert d cu bk; decide
  exact ⟨by rw [dispCtl, hl]; rfl, execDelay_short hclass⟩

/-- Settles O20: each sends DispCtl of the three flags with its own replaced, and `dsOnOk` commits that flag. -/
theorem flagOperationsComplete : Obligations.FlagOperationsComplete := by
  intro s v hr h
  exact ⟨completes_of_command (i := .dispvis v) ⟨rfl, fun _ => hr, rfl⟩ hr rfl h (dispCtl_default_short _ _ _),
    completes_of_command (i := .curvis v) ⟨rfl, fun _ => hr, rfl⟩ hr rfl h (dispCtl_default_short _ _ _),
    completes_of_command (i := .curblink v) ⟨rfl, fun _ => hr, rfl⟩ hr rfl h (dispCtl_default_short _ _ _)⟩

/-! ## The operations that send several bytes -/

/-- Data bytes are four writes each (R113, R143). -/
theorem writeCount_flatMap_dataEvents (c : Config) (bl : Bool) (bytes : List Byte) :
    writeCount (bytes.flatMap (dataEvents c bl)) = 4 * bytes.length := by
  induction bytes with
  | nil => rfl
  | cons b bs ih =>
    rw [List.flatMap_cons, writeCount_append, ih]
    simp [dataEvents, Nat.mul_add, Nat.add_comm]

/-- Settles O22: a legal index passes the check, and the address command and the rows make as many writes as the
transport answers. -/
theorem glyphCompletes : Obligations.GlyphCompletes := by
  intro s index rows hr hi h
  have hcount : writeCount (expansion (.glyph index rows) s) = 4 + 4 * rows.length := by
    simp [expansion, glyphEvents, commandEvents, writeCount_flatMap_dataEvents]
  obtain ⟨t, ht, hc⟩ := completes_of_executes (i := .glyph index rows)
    ⟨rfl, fun _ => hr, decide_eq_true hi⟩ (by rwa [hcount])
  rw [hr] at hc
  exact ⟨t, ht, hc⟩

/-- Settles O26: writeString is one transmission of the bytes' data events, none for the empty string. -/
theorem writeStringCompletes : Obligations.WriteStringCompletes := by
  intro s bytes hr h
  have hevents : actionEvents (bytes.flatMap (dataActions s.cfg s.adapter.ds.bl))
      = bytes.flatMap (dataEvents s.cfg s.adapter.ds.bl) := by
    simp only [actionEvents_flatMap, actionEvents_dataActions]
  have hc := transmit_completes (bytes.flatMap (dataActions s.cfg s.adapter.ds.bl)) s
    (by rwa [hevents, writeCount_flatMap_dataEvents])
  rw [hevents, hr] at hc
  rwa [writeString, requireReady_ready _ hr]

/-! ## Refusals -/

/-- Settles O29: each operand fails its check, and `exec_badArgument` refuses it. -/
theorem invalidArgumentRefused : Obligations.InvalidArgumentRefused := by
  intro s hr
  have refused (i : Instr) (ha : argumentsOk s.cfg i = false) :
      ∃ t, exec i s = .next t ∧ RefusedWith .invalidArgument s t := ⟨_, exec_badArgument i s hr ha, rfl⟩
  refine ⟨fun row column hout => refused _ ?_, fun index rows hout => refused _ ?_⟩
  · rcases hout with hrow | hcol
    · simp [argumentsOk, hrow]
    · simp [argumentsOk, hcol]
  · exact decide_eq_false (by omega)

/-! ## The backlight -/

/-- setBacklight in Ready: `DS.BL` is written before the one write, if there is one (R169). -/
theorem exec_backlight {s : State} (on : Bool) (hr : s.adapter.mode = .ready) :
    exec (.backlight on) s = .next (transmit (backlightActions s.cfg on) id (updateDs (dsWithBl on) s)) := by
  rw [exec, execBacklight, requireReady_ready _ hr]

/-- Settles O21: without `BL_IMMEDIATE` there is nothing to transmit; with it the one write is the next the transport
answers, with success (R52). -/
theorem backlightCompletes : Obligations.BacklightCompletes := by
  intro s on hr
  rw [exec_backlight on hr, backlightActions]
  refine ⟨fun himm => ?_, fun himm h => ?_⟩
  · rw [himm]; rfl
  · obtain ⟨as, ha, -⟩ := transportSucceeds_succ h
    have hwrite := memWrite_success (s := setSeq 0 (updateDs (dsWithBl on) s))
      (b := portByte s.cfg 0 false on false) ha
    rw [if_pos himm]
    simp only [transmit, perform, hwrite, conclude]
    rfl

end Sys2Proof.Machine
end

section
/-! PROOFS. The errors of R190 to R196: which status an instruction returns (R195), how `MODE` follows it (R201 to R204),
and that an instruction whose writes are all answered returns one (R209). -/

namespace Sys2Proof.Machine

/-! ## Codes -/

/-- Settles O27: the numbers are those of R194 and R23, and each type has just the constructors named. -/
theorem statusAndModeCodes : Obligations.StatusAndModeCodes := by
  refine ⟨⟨rfl, rfl, rfl, rfl⟩, ⟨rfl, rfl, rfl⟩, fun st => ?_, fun m => ?_⟩
  · cases st with
    | ok => exact .inl rfl
    | transportError => exact .inr (.inl rfl)
    | notInitializedError => exact .inr (.inr (.inl rfl))
    | invalidArgument => exact .inr (.inr (.inr rfl))
  · cases m with
    | uninitialized => exact .inl rfl
    | ready => exact .inr (.inl rfl)
    | faulted => exact .inr (.inr rfl)

/-! ## What an instruction returns -/

/-- An instruction answers one next state. -/
theorem exec_unique {i : Instr} {s t u : State} (ht : exec i s = .next t) (hu : exec i s = .next u) : t = u := by
  simpa [hu] using ht.symm

/-- Only an operation that `RequireReady` guards checks the range of an operand (R163, R170). -/
theorem needsReady_of_badArgument {c : Config} {i : Instr} (h : argumentsOk c i = false) : needsReady i = true := by
  unfold argumentsOk at h
  split at h
  · rfl
  · rfl
  · cases h

/-- Which check refused an instruction, with the status it gave, or that all of them passed (R195). -/
theorem exec_refusal_cases {i : Instr} {s t : State} (h : exec i s = .next t) :
    (isReserved i = true ∧ t = returnStatus .invalidArgument s)
      ∨ (needsReady i = true ∧ s.adapter.mode ≠ .ready ∧ t = returnStatus .notInitializedError s)
      ∨ (needsReady i = true ∧ s.adapter.mode = .ready ∧ t = returnStatus .invalidArgument s)
      ∨ Executes i s := by
  rcases checks_cases i s with hr | ⟨hn, hm⟩ | ⟨-, hm, ha⟩ | he
  · exact .inl ⟨hr, exec_unique h (exec_reserved i s hr)⟩
  · exact .inr (.inl ⟨hn, hm, exec_unique h (exec_notReady i s hn hm)⟩)
  · exact .inr (.inr (.inl ⟨needsReady_of_badArgument ha, hm, exec_unique h (exec_badArgument i s hm ha)⟩))
  · exact .inr (.inr (.inr he))

/-- An instruction that executes returns OK with the mode it commits, or TransportError in Faulted, or waits with its mode
kept (R201, R202, R209). -/
theorem status_mode_of_executes {i : Instr} {s t : State} (he : Executes i s) (h : exec i s = .next t) :
    (t.env.statuses = s.env.statuses ++ [.ok] ∧ t.adapter.mode = modeOnOk i s.adapter.mode)
      ∨ (t.env.statuses = s.env.statuses ++ [.transportError] ∧ t.adapter.mode = .faulted)
      ∨ (t.env.statuses = s.env.statuses ∧ t.adapter.outstanding.isSome = true
          ∧ t.adapter.mode = s.adapter.mode) := by
  obtain ⟨u, hu, hends⟩ := exec_cases i s he
  obtain rfl := exec_unique h hu
  rcases hends with ⟨-, -, hmode, -, -, -, -, -, henv⟩ | ⟨k, -, -, hmode, -, -, -, -, -, henv⟩ | ⟨k, ⟨hk, -⟩, hh⟩
  · exact .inl ⟨congrArg Environment.statuses henv, hmode⟩
  · exact .inr (.inl ⟨congrArg Environment.statuses henv, hmode⟩)
  · have hbusy := Option.isSome_iff_ne_none.2 (hh.outstanding_ne_none hk)
    obtain ⟨-, hmode, -, -, -, -, -, henv⟩ := hh
    exact .inr (.inr ⟨by rw [henv], hbusy, hmode⟩)

/-- Settles O30: each check refuses by its own lemma, and an instruction that passes them all ends as
`status_mode_of_executes` says. -/
theorem firstErrorReported : Obligations.FirstErrorReported := by
  intro i s t h
  refine ⟨fun hr => exec_unique h (exec_reserved i s hr), fun _ hn hm => exec_unique h (exec_notReady i s hn hm),
    fun _ hready ha => exec_unique h (exec_badArgument i s (hready (needsReady_of_badArgument ha)) ha), fun he => ?_⟩
  rcases status_mode_of_executes he h with ⟨hok, -⟩ | ⟨herror, -⟩ | ⟨hnone, -⟩
  · exact .inr (.inl hok)
  · exact .inr (.inr herror)
  · exact .inl hnone

/-! ## NotInitializedError -/

/-- A transmission with nothing to commit returns no status but OK and TransportError (R195, R209). -/
theorem status_of_transmit {acts : List Action} {s : State} {st : Status}
    (h : (transmit acts id s).env.statuses = s.env.statuses ++ [st]) : st = .ok ∨ st = .transportError := by
  have hran : (perform acts (setSeq 0 s)).2.env.statuses = s.env.statuses := (perform_frame acts (setSeq 0 s)).statuses
  rw [transmit, conclude] at h
  split at h
  · left; simpa [hran, eq_comm] using h
  · right; simpa [raise, hran, eq_comm] using h
  · simp [hran] at h

/-- Settles O28: outside Ready the mode check refuses; and no other check gives this status, nor does a transmission. -/
theorem notReadyRefused : Obligations.NotReadyRefused := by
  refine ⟨rfl, fun bytes s => ⟨writeString_notReady bytes, fun hst hready => ?_⟩,
    fun i s => ⟨fun hn hm => ⟨_, exec_notReady i s hn hm, rfl⟩, fun t h hst => ?_⟩⟩
  · rw [writeString, requireReady_ready _ hready] at hst
    rcases status_of_transmit hst with hst | hst
    · cases hst
    · cases hst
  · rcases exec_refusal_cases h with ⟨-, rfl⟩ | ⟨hn, hm, -⟩ | ⟨-, -, rfl⟩ | he
    · simp at hst
    · exact ⟨hn, hm⟩
    · simp at hst
    · rcases status_of_executes he h hst with hst | hst
      · cases hst
      · cases hst

/-! ## Every answered instruction returns -/

/-- A transport that answers the writes of a list leaves none of them unanswered (R209, R243). -/
theorem not_silentAt_of_transportAnswers {evs : List Event} {s : State} (h : TransportAnswers (writeCount evs) s)
    (k : Nat) : ¬ SilentAt k evs s := by
  obtain ⟨hlength, hanswered⟩ := h
  rintro ⟨hk, -, hsilence | hend⟩
  · exact hanswered (List.mem_of_getElem? ((List.getElem?_take_of_lt hk).trans hsilence))
  · have := List.getElem?_eq_none_iff.1 hend
    omega

/-- Settles O33: a refused instruction returns the status of its check, and one that executes completes or faults, since
none of its writes can hang. -/
theorem answeredInstructionReturns : Obligations.AnsweredInstructionReturns := by
  intro i s hanswers
  obtain ⟨t, ht, -⟩ := exec_next i s
  rcases refused_or_executes ht with ⟨st, rfl⟩ | he
  · exact ⟨_, st, ht, rfl, rfl⟩
  · obtain ⟨u, hu, ⟨-, -, -, -, -, -, hout, -, henv⟩ | ⟨k, -, -, -, -, -, -, hout, -, henv⟩ | ⟨k, hsilent, -⟩⟩ :=
      exec_cases i s he
    · exact ⟨u, .ok, hu, congrArg Environment.statuses henv, hout⟩
    · exact ⟨u, .transportError, hu, congrArg Environment.statuses henv, hout⟩
    · exact absurd hsilent (not_silentAt_of_transportAnswers hanswers k)

/-! ## The transition table (R204) -/

/-- A reset at the head of the host's requests is taken, at a busy port too (R209, R220). -/
theorem fetch_reset {s : State} {rest : List Request} (hr : s.env.requests = .reset :: rest) : fetch s = .reset := by
  simp [fetch, hr]

/-- A step that takes a reset leaves Uninitialized (R203, R221). -/
theorem mode_of_step_reset {s t : State} {rest : List Request} (hr : s.env.requests = .reset :: rest)
    (h : step s = .next t) : t.adapter.mode = .uninitialized := by
  obtain ⟨hw, -⟩ := step_cases h
  rw [step, if_pos hw, fetch_reset hr] at h
  injection h with h
  rw [← h]; rfl

/-- The operations of the host are INIT and those that `RequireReady` guards (R140). -/
theorem needsReady_of_ne_init {i : Instr} (hres : isReserved i = false) (hinit : i ≠ .init)
    (hport : ∀ nib bl en rs, i ≠ .portbyte nib bl en rs) : needsReady i = true := by
  cases i with
  | init => exact absurd rfl hinit
  | portbyte nib bl en rs => exact absurd rfl (hport nib bl en rs)
  | reservedC | reservedD | reservedE | reservedF => cases hres
  | cmd | data | clear | home | setcur | wrchar | dispvis | curvis | curblink | backlight | glyph | lcdClear | lcdHome
  | lcdEntrymode | lcdDispctl | lcdShift | lcdFuncset | lcdSetcgram | lcdSetddram | lcdNone => rfl

/-- Settles O34: a refusal keeps `MODE` and is none of INIT, which has no check; of the operations that execute, INIT
does from every mode and the others from Ready only. -/
theorem modeFollowsTransitionTable : Obligations.ModeFollowsTransitionTable := by
  refine ⟨fun s t rest => mode_of_step_reset, fun s t w rest ho hr hi h => ?_, fun i s t hport h => ?_⟩
  · obtain ⟨hw, -⟩ := step_cases h
    rw [step_illegalWord hw ho hr hi] at h
    injection h with h
    rw [← h]; exact ⟨rfl, rfl⟩
  · rcases exec_refusal_cases h with ⟨hres, rfl⟩ | ⟨hn, hm, rfl⟩ | ⟨hn, hm, rfl⟩ | he
    · have hinit : i ≠ .init := by rintro rfl; cases hres
      exact .inr (.inr (.inr (.inr (.inr (.inl ⟨hinit, rfl, fun _ => hres, rfl⟩)))))
    · have hinit : i ≠ .init := by rintro rfl; cases hn
      exact .inr (.inr (.inr (.inr (.inl ⟨hinit, rfl, hm, rfl⟩))))
    · have hinit : i ≠ .init := by rintro rfl; cases hn
      exact .inr (.inr (.inr (.inr (.inr (.inl ⟨hinit, rfl, fun hne => absurd hm hne, rfl⟩)))))
    · have ⟨hres, hready, _⟩ := he
      have ready (hinit : i ≠ .init) : s.adapter.mode = .ready := hready (needsReady_of_ne_init hres hinit hport)
      rcases status_mode_of_executes he h with ⟨hst, hmode⟩ | ⟨hst, hmode⟩ | hwait
      · by_cases hinit : i = .init
        · subst hinit; exact .inl ⟨rfl, hst, hmode⟩
        · rw [modeOnOk_of_ne_init hinit, ready hinit] at hmode
          exact .inr (.inr (.inl ⟨hinit, hst, ready hinit, hmode⟩))
      · by_cases hinit : i = .init
        · exact .inr (.inl ⟨hinit, hst, hmode⟩)
        · exact .inr (.inr (.inr (.inl ⟨hinit, hst, ready hinit, hmode⟩)))
      · exact .inr (.inr (.inr (.inr (.inr (.inr hwait)))))

end Sys2Proof.Machine
end

section
/-! PROOFS. Reset in every state and at any moment of an operation, and the waits between requests (R209, R220 to R223,
R242); and the minimum durations of the operations (R239, R240). -/

namespace Sys2Proof.Machine

/-! ## Reset during an operation (R222) -/

/-- Reset leaves the values of R221, whatever state it is asserted in. -/
theorem freshReset_assertReset (s : State) : FreshReset (assertReset s) := ⟨rfl, rfl, rfl, rfl, rfl, rfl, rfl⟩

/-- The events of an operation are what it adds to the trace. -/
theorem eventsBetween_eq {s t : State} {evs : List Event} (h : t.env.trace = s.env.trace ++ evs) :
    eventsBetween s t = evs := by
  rw [eventsBetween, h, List.drop_left]

/-- A write that the transport does not answer with success comes after those that it answers so. -/
theorem writeCount_le_of_not_success {evs : List Event} {s : State} {k : Nat}
    (h : TransportSucceeds (writeCount evs) s) (hk : s.env.answers[k]? ≠ some .success) : writeCount evs ≤ k :=
  Nat.le_of_not_lt fun hlt => hk (not_fails_of_succeeds h hlt)

/-- An instruction whose first `n` events have only writes that succeed reaches them all, however it ends: a write that
fails or is never answered comes after them. -/
theorem take_eventsBetween {i : Instr} {s t : State} {n : Nat} (he : Executes i s) (h : exec i s = .next t)
    (hn : n ≤ (expansion i s).length) (hs : TransportSucceeds (writeCount ((expansion i s).take n)) s) :
    (eventsBetween s t).take n = (expansion i s).take n ∧ n ≤ (eventsBetween s t).length := by
  have hx := noFailure_expansion i s
  obtain ⟨u, hu, hends⟩ := exec_cases i s he
  obtain rfl := exec_unique h hu
  rcases hends with ⟨-, hc⟩ | ⟨k, ⟨hk, -, hfail⟩, hf⟩ | ⟨k, ⟨-, -, hsilent⟩, hh⟩
  · rw [eventsBetween_eq hc.trace_eq]
    exact ⟨rfl, hn⟩
  · obtain ⟨-, -, -, -, -, -, -, henv⟩ := hf
    rw [eventsBetween_eq (congrArg Environment.trace henv)]
    have hle := writeCount_le_of_not_success hs (k := k) (by simp [hfail])
    exact (take_cutAtWrite _ n k hx hle hk).imp_right (· hn)
  · obtain ⟨-, -, -, -, -, -, -, henv⟩ := hh
    rw [eventsBetween_eq (congrArg Environment.trace henv)]
    have hle := writeCount_le_of_not_success hs (k := k) (by rcases hsilent with h | h <;> simp [h])
    exact (take_beforeWrite _ n k hx hle).imp_right (· hn)

/-- A reset after `n` events of an instruction uses the answers to the writes among them. -/
theorem answers_of_execThenReset {i : Instr} {n : Nat} {s t : State} (h : execThenReset i n s = .next t)
    (he : Executes i s) (hn : n ≤ (expansion i s).length)
    (hs : TransportSucceeds (writeCount ((expansion i s).take n)) s) :
    t.env.answers = s.env.answers.drop (writeCount ((expansion i s).take n)) := by
  obtain ⟨u, hu, -⟩ := exec_next i s
  obtain ⟨htake, hlength⟩ := take_eventsBetween he hu hn hs
  simp only [execThenReset, hu, if_pos hlength] at h
  injection h with h
  rw [← h, assertReset_env, stoppedAfter_env, htake]

/-- Settles O12: a word that is no instruction is refused and then reset; an instruction is abandoned in the state a reset
leaves, with the answers to its first `n` events used. -/
theorem resetAbandonsOperation : Obligations.ResetAbandonsOperation := by
  intro s w n rest hw ho hr
  have hf := fetch_wordThenReset ho hr
  cases hd : decode (.host w) with
  | error e =>
    rw [hd] at hf
    have hstep : step s = .next (assertReset (illegalWord (dropRequest s))) := by rw [step, if_pos hw, hf]
    exact ⟨_, hstep, freshReset_assertReset _, rfl, congrArg List.tail hr, nofun⟩
  | ok i =>
    rw [hd] at hf
    have hstep : step s = execThenReset i n (dropRequest s) := by rw [step, if_pos hw, hf]
    obtain ⟨u, hu, hcfg, hreq⟩ := execThenReset_next i n (dropRequest s)
    refine ⟨assertReset u, hstep.trans hu, freshReset_assertReset u, hcfg, hreq.trans (congrArg List.tail hr),
      fun j hj he hn hs => ?_⟩
    injection hj with hj
    subst hj
    exact answers_of_execThenReset (s := dropRequest s) hu he hn hs

/-! ## Reset between operations, and the waits (R209, R220, R221) -/

/-- A step that finds a reset takes it from the requests and asserts it. -/
theorem step_of_fetch_reset {s : State} (hw : configWf s.cfg = true) (hf : fetch s = .reset) :
    step s = .next (assertReset (dropReset s)) := by
  rw [step, if_pos hw, hf]

/-- Settles O11: a reset is found at the head of the requests in every state, and anywhere among them at a busy port. -/
theorem resetTakenInEveryState : Obligations.ResetTakenInEveryState := by
  refine ⟨fun s rest hw hr => ?_, fun s b hw ho hmem => ?_⟩
  · refine ⟨_, step_of_fetch_reset hw (fetch_reset hr), freshReset_assertReset _, rfl, ?_, rfl⟩
    rw [assertReset_env, dropReset_env, hr, List.erase_cons_head]
  · have hf : fetch s = .reset := by rw [fetch_busy ho, if_pos hmem]
    exact ⟨_, step_of_fetch_reset hw hf, freshReset_assertReset _, rfl, rfl, rfl⟩

/-- With no request there is nothing to take, at a busy port too. -/
theorem fetch_nil {s : State} (hr : s.env.requests = []) : fetch s = .nothing := by
  simp [fetch, hr]

/-- Settles O8: in both cases nothing is found at the host port. -/
theorem stepWaitsWithoutAcceptedRequest : Obligations.StepWaitsWithoutAcceptedRequest := by
  intro s hw hwaits
  have hf : fetch s = .nothing := by
    rcases hwaits with hr | ⟨b, ho, hreset⟩
    · exact fetch_nil hr
    · rw [fetch_busy ho, if_neg hreset]
  rw [step, if_pos hw, hf]

/-! ## Minimum durations (R240) -/

/-- What an instruction whose writes all succeed adds to the duration of the trace. -/
theorem minDuration_of_executes {i : Instr} {s t : State} (he : Executes i s)
    (hs : TransportSucceeds (writeCount (expansion i s)) s) (h : exec i s = .next t) :
    minDuration t.env.trace = minDuration s.env.trace + minDuration (expansion i s) := by
  obtain ⟨u, hu, hc⟩ := completes_of_executes he hs
  obtain rfl := exec_unique h hu
  rw [hc.trace_eq, minDuration_append]

/-- A Set-CGRAM-address byte is in the short delay class (R98). -/
theorem delayClass_setCgram {c : Config} (hl : c.lcdi = defaultLcdi) (index : BitVec 4) :
    delayClass (setCgram c index) = .short := by
  rw [setCgram, hl]
  revert index; decide

/-- A DispCtl byte is in the short delay class (R98). -/
theorem delayClass_dispCtl {c : Config} (hl : c.lcdi = defaultLcdi) (d cu bk : Bool) :
    delayClass (dispCtl c d cu bk) = .short := by
  rw [dispCtl, hl]
  revert d cu bk; decide

section
variable {c : Config} (ht : c.times = defaultTiming)
include ht

/-- A pulse holds Enable high for `T_ENH` and low for `T_ENL` (R112, R239). -/
theorem minDuration_pulseEvents (x : Byte) : minDuration (pulseEvents c x) = 2000 := by
  simp [pulseEvents, minDuration, ht, defaultTiming]

/-- A byte is two pulses (R113). -/
theorem minDuration_byteEvents (bl : Bool) (v : Byte) (rs : Bool) : minDuration (byteEvents c bl v rs) = 4000 := by
  simp only [byteEvents, minDuration_append, minDuration_pulseEvents ht]

/-- sendCommand is a byte and the delay of its class (R142). -/
theorem minDuration_commandEvents (bl : Bool) (cmd : Byte) :
    minDuration (commandEvents c bl cmd) = 4000 + execDelay c cmd := by
  simp only [commandEvents, minDuration_append, minDuration_byteEvents ht, minDuration_idle]

theorem minDuration_commandEvents_short {cmd : Byte} (h : delayClass cmd = .short) (bl : Bool) :
    minDuration (commandEvents c bl cmd) = 44000 := by
  rw [minDuration_commandEvents ht, execDelay_short h, ht]; rfl

theorem minDuration_commandEvents_long {cmd : Byte} (h : delayClass cmd = .long) (bl : Bool) :
    minDuration (commandEvents c bl cmd) = 1524000 := by
  rw [minDuration_commandEvents ht, execDelay_long h, ht]; rfl

/-- sendData is a byte and `T_DATA` (R143). -/
theorem minDuration_dataEvents (bl : Bool) (value : Byte) : minDuration (dataEvents c bl value) = 44000 := by
  rw [dataEvents, minDuration_append, minDuration_byteEvents ht, minDuration_idle, ht]; rfl

/-- The data bytes of a string or a glyph follow one another (R165, R170). -/
theorem minDuration_flatMap_dataEvents (bl : Bool) (bytes : List Byte) :
    minDuration (bytes.flatMap (dataEvents c bl)) = 44000 * bytes.length := by
  induction bytes with
  | nil => rfl
  | cons b bs ih =>
    rw [List.flatMap_cons, minDuration_append, minDuration_dataEvents ht, ih, List.length_cons]
    omega

/-- The address command and eight rows (R170). -/
theorem minDuration_glyphEvents (hl : c.lcdi = defaultLcdi) (bl : Bool) (index : BitVec 4) {rows : List Byte}
    (h : rows.length = 8) : minDuration (glyphEvents c bl index rows) = 396000 := by
  rw [glyphEvents, minDuration_append, minDuration_commandEvents_short ht (delayClass_setCgram hl index),
    minDuration_flatMap_dataEvents ht, h]

/-- initialize waits for power-up, sends four raw nibbles and four bytes, and waits after each (R141). -/
theorem minDuration_initEvents (hl : c.lcdi = defaultLcdi) (bl : Bool) : minDuration (initEvents c bl) = 21064000 := by
  rw [initEventsAreTheHandshake c bl hl]
  simp only [minDuration_append, minDuration_pulseEvents ht, minDuration_byteEvents ht, minDuration_idle, ht,
    defaultTiming]

end

/-- setBacklight makes at most a write, and a write takes no delay (R169). -/
theorem minDuration_backlightEvents (c : Config) (on : Bool) : minDuration (backlightEvents c on) = 0 := by
  unfold backlightEvents
  split
  · rfl
  · rfl

/-- Settles O53: each operation adds the duration of its event list, and with the default constants only the bytes of
clear and home are in the long delay class. -/
theorem minimumDurations : Obligations.MinimumDurations := by
  intro s ht hl
  have adds {i : Instr} {ns : Nat} (hd : minDuration (expansion i s) = ns) (t : State) (he : Executes i s)
      (hs : TransportSucceeds (writeCount (expansion i s)) s) (h : exec i s = .next t) :
      minDuration t.env.trace = minDuration s.env.trace + ns := hd ▸ minDuration_of_executes he hs h
  have short {cmd : Byte} (h : delayClass cmd = .short) := minDuration_commandEvents_short ht h s.adapter.ds.bl
  have long {cmd : Byte} (h : delayClass cmd = .long) := minDuration_commandEvents_long ht h s.adapter.ds.bl
  have data := minDuration_dataEvents ht s.adapter.ds.bl
  have flags (d cu bk : Bool) := short (delayClass_dispCtl hl d cu bk)
  refine ⟨minDuration_pulseEvents ht, minDuration_byteEvents ht, fun bytes hr h => ?_,
    adds (minDuration_initEvents ht hl _), fun cmd h1 h2 h3 => adds (short ?_), fun v => adds (data v),
    fun v => adds (data v), adds (long ?_), adds (long ?_), fun row column => adds (short (delayClass_setDdram hl _)),
    fun v => adds (flags _ _ _), fun v => adds (flags _ _ _), fun v => adds (flags _ _ _),
    fun on => adds (minDuration_backlightEvents _ on), fun index rows h => adds (minDuration_glyphEvents ht hl _ _ h)⟩
  · rw [(writeStringCompletes s bytes hr h).trace_eq, minDuration_append]
    exact congrArg _ (minDuration_flatMap_dataEvents ht _ bytes)
  · rw [delayClass_eq, if_neg (not_or.2 ⟨h1, not_or.2 ⟨h2, h3⟩⟩)]
  · rw [hl]; decide
  · rw [hl]; decide

end Sys2Proof.Machine
end

section
/-! PROOFS. The step outside R6, where the spec defines no machine (U16, log 13). -/

namespace Sys2Proof.Machine

/-- Settles O9: `step` checks the configuration before it looks at the host port, so no request is taken. -/
theorem illFormedConfigStops : Obligations.IllFormedConfigStops := by
  intro s hw
  have hn : ¬ configWf s.cfg = true := Bool.eq_false_iff.1 hw
  rw [step, if_neg hn]

end Sys2Proof.Machine
end
